-- ==== Sys2Proof/Word.lean ====
section
/-! DEFINITION. The word types of the core: the byte (00_scope.md R7) and the index of a general register (10_state.md R11). -/

namespace Sys2Proof

/-- `Byte` of R7: every register, memory cell and the program counter hold one. All values are unsigned. -/
abbrev Byte := BitVec 8

/-- `RegIdx` of R7: the indices 0 to 7 of the registers X0 to X7. -/
abbrev RegIdx := Fin 8

end Sys2Proof
end

