-- ==== Sys2Proof/Config.lean ====
section
/-! DEFINITION. What is fixed for a machine and is not state (00_scope.md R5): the fixed sizes, the type of the opcode map `OPC`,
the reset value `SP_INIT`, and the Boolean `ADDR_WRAP` of the notes of 92_eei_decisions.md.
The default numbers of `OPC` stand with the other encoding tables, in Decode.lean (`defaultOpc`). -/

namespace Sys2Proof

/-- The nine mnemonics, in the order of the opcode table (30_encoding.md R54). -/
inductive Mnemonic where
  | hlt | ldi | prn | add | mul | push | pop | call | ret
deriving DecidableEq, Repr

/-- All nine mnemonics. -/
def Mnemonic.all : List Mnemonic := [.hlt, .ldi, .prn, .add, .mul, .push, .pop, .call, .ret]

/-- The parameter `OPC` of R5: one byte for each of the nine mnemonics. `OpcodeMap.wf` (WellFormed.lean) says it is injective. -/
structure OpcodeMap where
  hlt : Byte
  ldi : Byte
  prn : Byte
  add : Byte
  mul : Byte
  push : Byte
  pop : Byte
  call : Byte
  ret : Byte
deriving DecidableEq, Repr

/-- `OPC[m]`. -/
def OpcodeMap.code (opc : OpcodeMap) : Mnemonic → Byte
  | .hlt => opc.hlt
  | .ldi => opc.ldi
  | .prn => opc.prn
  | .add => opc.add
  | .mul => opc.mul
  | .push => opc.push
  | .pop => opc.pop
  | .call => opc.call
  | .ret => opc.ret

namespace Config

/-- `MEM_SIZE` of R5: addresses 0 to 255. -/
def memSize : Nat := 256

/-- `SP_INDEX` of R5: register 7 is the stack pointer (10_state.md R12). -/
def spIndex : RegIdx := 7

/-- `PC_RESET` of R5. -/
def pcReset : Byte := 0

/-- `SP_INIT` of R5, default 244 (10_state.md R22). DESIGN CHOICE of the spec (decision D1), log entry 1.
`State.resetWith` takes it as an argument. -/
def spInit : Byte := 0xF4

/-- `ADDR_WRAP` of the notes of 92_eei_decisions.md: `false` is the decisions D3 to D6 (address arithmetic never wraps),
which is what the spec specifies; `true` is the alternative it lists for comparison. Log entry 5. -/
def addrWrap : Bool := false

end Config

end Sys2Proof
end

