-- ==== Sys2Proof/Syntax.lean ====
section
/-! DEFINITION. The instructions as the decoder reads them: one constructor per row of spec/opcode_table.json, in its order.
An operand is the whole operand byte (30_encoding.md R53); the register check `reg` is made when the instruction
executes (40_execution_cycle.md R73, R76), so an operand byte above 7 is an instruction that faults, not a byte that fails to decode. -/

namespace Sys2Proof

/-- An instruction. `ra`, `rb` and `imm` are the operand bytes of the formats of 30_encoding.md R51. -/
inductive Instr where
  | hlt
  | ldi (ra imm : Byte)
  | prn (ra : Byte)
  | add (ra rb : Byte)
  | mul (ra rb : Byte)
  | push (ra : Byte)
  | pop (ra : Byte)
  | call (ra : Byte)
  | ret
deriving DecidableEq, Repr

/-- The mnemonic of an instruction. -/
def Instr.mnemonic : Instr → Mnemonic
  | .hlt => .hlt
  | .ldi _ _ => .ldi
  | .prn _ => .prn
  | .add _ _ => .add
  | .mul _ _ => .mul
  | .push _ => .push
  | .pop _ => .pop
  | .call _ => .call
  | .ret => .ret

end Sys2Proof
end

