-- ==== Sys2Proof/WellFormed.lean ====
section
/-! DEFINITION. When an instruction is well formed (30_encoding.md R58: the only illegal encoding inside a known instruction is a
register operand byte above 7), and when an opcode map is (00_scope.md R5: nine distinct byte values). -/

namespace Sys2Proof

/-- A register operand byte is legal when it is 0 to 7 (R53). -/
def registerOperandOk (b : Byte) : Bool := decide (b.toNat ≤ 7)

/-- Every register operand of the instruction is legal; LDI's immediate may be any byte. -/
def Instr.wf : Instr → Bool
  | .hlt => true
  | .ldi ra _ => registerOperandOk ra
  | .prn ra => registerOperandOk ra
  | .add ra rb => registerOperandOk ra && registerOperandOk rb
  | .mul ra rb => registerOperandOk ra && registerOperandOk rb
  | .push ra => registerOperandOk ra
  | .pop ra => registerOperandOk ra
  | .call ra => registerOperandOk ra
  | .ret => true

/-- The constraint on `OPC` of R5: it is injective. -/
def OpcodeMap.wf (opc : OpcodeMap) : Bool := decide (Mnemonic.all.map opc.code).Nodup

end Sys2Proof
end

