-- ==== Sys2Proof/Decode.lean ====
section
/-! DEFINITION. Decoding (30_encoding.md R50 to R58, R61), total on any three bytes and rejecting an unknown opcode by name; and
after it the encoder, written from the same tables. Both take the opcode map as an argument (R54); `decode` and `encode` use the default. -/

namespace Sys2Proof

/-- The default of `OPC` (R54). PRESUMED by the spec (general knowledge of the LS-8 machine, decision D7), log entry 2. -/
def defaultOpc : OpcodeMap where
  hlt := 0b00000001
  ldi := 0b10000010
  prn := 0b01000111
  add := 0b10100000
  mul := 0b10100010
  push := 0b01000101
  pop := 0b01000110
  call := 0b01010000
  ret := 0b00010001

/-- Why bytes are no instruction: the opcode byte is none of the nine (R56). -/
inductive DecodeError where
  | unknownOpcode (ir : Byte)
deriving DecidableEq, Repr

/-- The opcode's fixed operand count (R51, R52). -/
def Mnemonic.operandCount : Mnemonic → Nat
  | .hlt => 0
  | .ldi => 2
  | .prn => 1
  | .add => 2
  | .mul => 2
  | .push => 1
  | .pop => 1
  | .call => 1
  | .ret => 0

/-- The width in bytes of an instruction: 1 + operand count (R52). -/
def Mnemonic.width (m : Mnemonic) : Nat := 1 + m.operandCount

/-- The mnemonic whose opcode the whole byte `ir` is, if any (R56). -/
def lookupOpcode (opc : OpcodeMap) (ir : Byte) : Option Mnemonic :=
  Mnemonic.all.find? fun m => opc.code m == ir

/-- The instruction of a mnemonic and the two fetched operand bytes; those its format does not use are discarded (R52, R53). -/
def assemble (m : Mnemonic) (opa opb : Byte) : Instr :=
  match m with
  | .hlt => .hlt
  | .ldi => .ldi opa opb
  | .prn => .prn opa
  | .add => .add opa opb
  | .mul => .mul opa opb
  | .push => .push opa
  | .pop => .pop opa
  | .call => .call opa
  | .ret => .ret

/-- Decode under the opcode map `opc`: the opcode byte alone chooses the instruction (R56, 40_execution_cycle.md R72). -/
def decodeWith (opc : OpcodeMap) (ir opa opb : Byte) : Except DecodeError Instr :=
  match lookupOpcode opc ir with
  | some m => .ok (assemble m opa opb)
  | none => .error (.unknownOpcode ir)

/-- Decode under the default opcode map. -/
def decode (ir opa opb : Byte) : Except DecodeError Instr := decodeWith defaultOpc ir opa opb

/-- Decode the first bytes of a sequence, a byte the sequence does not have read as 0. -/
def decodeBytesWith (opc : OpcodeMap) (bytes : List Byte) : Except DecodeError Instr :=
  decodeWith opc (bytes.getD 0 0) (bytes.getD 1 0) (bytes.getD 2 0)

/-- The operand bytes of an instruction in encoding order (R51). -/
def Instr.operandBytes : Instr → List Byte
  | .hlt => []
  | .ldi ra imm => [ra, imm]
  | .prn ra => [ra]
  | .add ra rb => [ra, rb]
  | .mul ra rb => [ra, rb]
  | .push ra => [ra]
  | .pop ra => [ra]
  | .call ra => [ra]
  | .ret => []

/-- Encode under the opcode map `opc`: the opcode byte at the lowest address, then the operand bytes (R50, R51). -/
def encodeWith (opc : OpcodeMap) (i : Instr) : List Byte := opc.code i.mnemonic :: i.operandBytes

/-- Encode under the default opcode map. -/
def encode (i : Instr) : List Byte := encodeWith defaultOpc i

/-- The three bytes of an instruction word as spec/opcode_table.json numbers its bits: bit 0 is the least significant bit of the
first byte; every bit from `nbits` up is 0. -/
def tableWordBytes (nbits w : Nat) : List Byte :=
  let v := w % 2 ^ nbits
  [BitVec.ofNat 8 v, BitVec.ofNat 8 (v / 2 ^ 8), BitVec.ofNat 8 (v / 2 ^ 16)]

/-- The instruction the decoder reads from an instruction word of the opcode table. -/
def decodeTableWord (nbits w : Nat) : Option Instr :=
  (decodeBytesWith defaultOpc (tableWordBytes nbits w)).toOption

end Sys2Proof
end

