-- ==== Sys2Proof/Machine/State.lean ====
section
/-! DEFINITION. The state of the machine (10_state.md R10: this "and nothing else"), its value after reset (R25), and the reasons a
step can stop. -/

namespace Sys2Proof.Machine

/-- `kind` of an `OutOfBoundsAccess` record (60_exceptions.md R110). -/
inductive BoundsKind where
  | mem
  | reg
deriving DecidableEq, Repr

/-- The fault records the core can leave (60_exceptions.md R110). Raising one is a NEXT state whose `status` is `faulted`
(R117, `enterFault` in Ops.lean); it is not the host's outcome `fault`. -/
inductive FaultRecord where
  /-- F1: the opcode byte and the address it was fetched from (R112). -/
  | unknownOpcode (opcode address : Byte)
  /-- F2: the kind, the offending integer, and the address of the faulting instruction (R111). -/
  | outOfBoundsAccess (kind : BoundsKind) (index : Int) (pc : Byte)
  /-- F3: in D00's taxonomy, raised by no step (R113). -/
  | unsupportedAluOperation
deriving DecidableEq, Repr

/-- The run status (10_state.md R17). -/
inductive Status where
  | running
  | halted
  | faulted (f : FaultRecord)
deriving DecidableEq, Repr

/-- The one address space (20_memory.md R30), as the cells that do not hold their reset value, by rising address.
`Memory.wf` (Memory.lean) is the canonical form. -/
abbrev Memory := List Host.Cell

/-- All the state the spec gives the machine (R10). The stack pointer is `x[7]` (R12); the latches IR, operand_a, operand_b, MAR
and MDR are locals of one step (R19). -/
structure State where
  /-- X0 to X7 (R11). -/
  x : Vector Byte 8
  /-- The program counter (R14). -/
  pc : Byte
  /-- The 256 memory cells (R18). -/
  mem : Memory
  /-- The run status (R17). -/
  status : Status
  /-- The output stream, oldest first (R20). -/
  output : List Byte
  /-- The diagnostic stream, oldest first (R20). At most one record in every state `Inv` (Safety.lean) holds in. -/
  diag : List FaultRecord
deriving DecidableEq, Repr

/-- The state after reset for a given `SP_INIT` (R21 to R25). -/
def State.resetWith (spInit : Byte) : State where
  x := #v[0, 0, 0, 0, 0, 0, 0, spInit]
  pc := Config.pcReset
  mem := []
  status := .running
  output := []
  diag := []

/-- The state after reset, with the default `SP_INIT` (R22, R25). -/
def State.reset : State := State.resetWith Config.spInit

/-- The stops of `step`: no step exists once the run has ended (40_execution_cycle.md R78, 60_exceptions.md R118). A stuck state, safe. -/
inductive Fault where
  /-- Raised by `step` when `status` is `halted`. Safe: the spec gives the machine no further step. -/
  | runHalted
  /-- Raised by `step` when `status` is `faulted f`. Safe: the spec gives the machine no further step. -/
  | runFaulted (f : FaultRecord)
deriving DecidableEq, Repr

/-- What the model gives no meaning. -/
inductive Refusal where
  /-- An instruction still rejected by name in `exec`; no arm is. Safe. -/
  | notModelled (mnemonic : String)
  /-- Raised by `Session.load` and `Session.run` once `run` has begun: outside the host protocol (70_reset_and_hazards.md R141, U11). Safe. -/
  | outsideHostProtocol
  /-- Raised by `trace` when `pc` is 254 or 255, which the spec leaves out (60_exceptions.md R121, U12). Safe. -/
  | traceAtTopOfMemory
deriving DecidableEq, Repr

end Sys2Proof.Machine
end

