-- ==== Sys2Proof/Machine/Flags.lean ====
section
/-! DEFINITION. The values the ALU computes (42_alu.md R90, R93). The hardware has no flags (10_state.md R16): an operation has a
value and nothing else, no carry, overflow, zero or sign. -/

namespace Sys2Proof.Machine

/-- The ALU's operation selector: a closed enumeration with two members (R90). -/
inductive AluOp where
  | add
  | mul
deriving DecidableEq, Repr

/-- `alu_value` (R90): the exact sum or product of the unsigned operands, reduced modulo 256. -/
def aluValue (op : AluOp) (a b : Byte) : Byte :=
  match op with
  | .add => BitVec.ofNat 8 ((a.toNat + b.toNat) % 256)
  | .mul => BitVec.ofNat 8 ((a.toNat * b.toNat) % 256)

end Sys2Proof.Machine
end

