-- ==== Sys2Proof/Machine/Memory.lean ====
section
/-! DEFINITION. The 256 byte cells as plain data: the canonical form, and reading and writing one cell. The range check on an
address comes before them (Ops.lean). -/

namespace Sys2Proof.Machine

/-- What an unlisted address reads as: every cell is 0 after reset (10_state.md R24). -/
def unlistedByte : Byte := 0

/-- The canonical form: addresses of the space (20_memory.md R30), strictly rising, none with the value of an unlisted one. -/
abbrev Memory.wf (m : Memory) : Prop :=
  m.Pairwise (fun c d => c.1 < d.1) ∧ ∀ c ∈ m, c.1 < Config.memSize ∧ c.2 ≠ unlistedByte

/-- The byte a cell holds. -/
def Memory.read (m : Memory) (a : Nat) : Byte :=
  match m.find? (fun c => c.1 == a) with
  | some c => c.2
  | none => unlistedByte

/-- Put a cell before the first one of a higher address. -/
def insertCell (c : Host.Cell) : Memory → Memory
  | [] => [c]
  | d :: m => if c.1 < d.1 then c :: d :: m else d :: insertCell c m

/-- Store `v` in the cell `a`, keeping the canonical form. -/
def Memory.write (m : Memory) (a : Nat) (v : Byte) : Memory :=
  let others := m.filter fun c => c.1 != a
  if v = unlistedByte then others else insertCell (a, v) others

/-- Store bytes in the cells from `a` up (the copying of 20_memory.md R44). -/
def Memory.writeBytes (m : Memory) (a : Nat) : List Byte → Memory
  | [] => m
  | b :: bs => Memory.writeBytes (m.write a b) (a + 1) bs

end Sys2Proof.Machine
end

