-- ==== Sys2Proof/Machine/Ops.lean ====
section
/-! DEFINITION. The operations the instructions share: registers, fault entry, the range check, memory access, the stack, the PC
advance, fetch. Where the spec says `raise`, an operation answers `.error`; `commit` then takes the fault and drops every write
(check-then-commit, 40_execution_cycle.md R73). -/

namespace Sys2Proof.Machine

/-- `x[r]` (00_scope.md R8). -/
def State.reg (s : State) (r : RegIdx) : Byte := s.x[r]

/-- `x[r] <- v` (00_scope.md R8). No register is hard-wired (10_state.md R11). -/
def State.setReg (s : State) (r : RegIdx) (v : Byte) : State := { s with x := s.x.set r v }

/-- SP, which is `x[7]` (10_state.md R12). -/
def State.sp (s : State) : Byte := s.reg Config.spIndex

/-- `x[7] <- v`. -/
def State.setSp (s : State) (v : Byte) : State := s.setReg Config.spIndex v

/-- `pc <- t` (00_scope.md R8). -/
def State.setPc (s : State) (t : Byte) : State := { s with pc := t }

/-- `Output(v)`: append to the output stream (10_state.md R20). -/
def State.emit (s : State) (v : Byte) : State := { s with output := s.output ++ [v] }

/-- Fault entry (60_exceptions.md R117): the status and the diagnostic stream record `f`; nothing else changes, so `pc` is the
address of the faulting instruction. There is no handler and no return (R118). -/
def enterFault (f : FaultRecord) (s : State) : State :=
  { s with status := .faulted f, diag := s.diag ++ [f] }

/-- End a step's execute part (40_execution_cycle.md R73): all its writes, or the fault from the state before them. -/
def commit (s : State) (result : Except FaultRecord State) : Host.Outcome State Fault Refusal :=
  match result with
  | .ok t => .next t
  | .error f => .next (enterFault f s)

/-- The range check on the exact integer address (20_memory.md R33). With `wrap` (ADDR_WRAP of 92_eei_decisions.md, log entry 5)
an integer outside 0 to 255 is reduced modulo 256 instead of faulting. -/
def rangeCheckWith (wrap : Bool) (pc : Byte) (a : Int) : Except FaultRecord Byte :=
  if (0 ≤ a ∧ a ≤ 255) ∨ wrap = true then .ok (BitVec.ofInt 8 a) else .error (.outOfBoundsAccess .mem a pc)

/-- The range check of this hardware: address arithmetic never wraps (20_memory.md R33, decisions D3 to D6, log entry 5). -/
def rangeCheck (pc : Byte) (a : Int) : Except FaultRecord Byte := rangeCheckWith Config.addrWrap pc a

/-- `MemRead(a, 1)` (20_memory.md R31). -/
def memRead (a : Int) (s : State) : Except FaultRecord Byte := do
  let b ← rangeCheck s.pc a
  return s.mem.read b.toNat

/-- `MemWrite(a, 1, v)` (20_memory.md R32). -/
def memWrite (a : Int) (v : Byte) (s : State) : Except FaultRecord State := do
  let b ← rangeCheck s.pc a
  return { s with mem := s.mem.write b.toNat v }

/-- `pc + w` as a PC value, for the address `pc` of the instruction: computed exactly and range-checked (10_state.md R15,
40_execution_cycle.md R75). -/
def pcPlus (w : Nat) (pc : Byte) : Except FaultRecord Byte := rangeCheck pc (pc.toNat + w)

/-- The address a push stores to, `x[7] - 1`, range-checked (43_stack.md R95, R98). -/
def pushAddress (s : State) : Except FaultRecord Byte := rangeCheck s.pc (s.sp.toNat - 1)

/-- Push one byte (43_stack.md R95): decrement SP, then store. `value` is read after the decrement (R96). -/
def pushByte (value : State → Byte) (s : State) : Except FaultRecord State := do
  let a ← pushAddress s
  let s1 := s.setSp a
  memWrite a.toNat (value s1) s1

/-- The byte a pop reads, at the address in SP (43_stack.md R95). -/
def topByte (s : State) : Except FaultRecord Byte := memRead s.sp.toNat s

/-- Increment SP exactly and range-check it (43_stack.md R98). -/
def incSp (s : State) : Except FaultRecord State := do
  let a ← rangeCheck s.pc (s.sp.toNat + 1)
  return s.setSp a

/-- The ALU (42_alu.md R90): both operands are read before the destination `a` is written. -/
def alu (op : AluOp) (a b : RegIdx) (s : State) : State := s.setReg a (aluValue op (s.reg a) (s.reg b))

/-- The three bytes of one fetch (40_execution_cycle.md R71). -/
structure Fetched where
  ir : Byte
  opa : Byte
  opb : Byte
deriving DecidableEq, Repr

/-- Fetch: three reads in this order, for every opcode, each range-checked (R71). -/
def fetch (s : State) : Except FaultRecord Fetched := do
  let ir ← memRead s.pc.toNat s
  let opa ← memRead (s.pc.toNat + 1) s
  let opb ← memRead (s.pc.toNat + 2) s
  return ⟨ir, opa, opb⟩

end Sys2Proof.Machine
end

