-- ==== Sys2Proof/Machine/Operands.lean ====
section
/-! DEFINITION. The operand forms (30_encoding.md R53). There are two: the immediate, which is the operand byte itself, and the
register operand, whose byte is checked here. -/

namespace Sys2Proof.Machine

/-- `reg(b)` (40_execution_cycle.md R76): the whole operand byte is the register index; 8 to 255 fault and nothing is masked. -/
def regOperand (b : Byte) (s : State) : Except FaultRecord RegIdx :=
  if h : b.toNat < 8 then .ok ⟨b.toNat, h⟩ else .error (.outOfBoundsAccess .reg b.toNat s.pc)

end Sys2Proof.Machine
end

