-- ==== Sys2Proof/Machine/Alu.lean ====
section
/-! DEFINITION. The ALU instructions: ADD and MUL (42_alu.md). -/

namespace Sys2Proof.Machine

/-- The common form of R91 and R92: operand `opa` is checked first, then `opb`, then the PC advance. -/
def aluInstruction (op : AluOp) (ra rb : Byte) (s : State) : Host.Outcome State Fault Refusal :=
  commit s do
    let a ← regOperand ra s
    let b ← regOperand rb s
    let npc ← pcPlus 3 s.pc
    return (alu op a b s).setPc npc

/-- ADD (R91). -/
def execAdd (ra rb : Byte) (s : State) : Host.Outcome State Fault Refusal := aluInstruction .add ra rb s

/-- MUL (R92). -/
def execMul (ra rb : Byte) (s : State) : Host.Outcome State Fault Refusal := aluInstruction .mul ra rb s

end Sys2Proof.Machine
end

