-- ==== Sys2Proof/Machine/DataMovement.lean ====
section
/-! DEFINITION. Data movement and output: LDI and PRN (41_data_movement_output.md). -/

namespace Sys2Proof.Machine

/-- LDI (R85). -/
def execLdi (ra imm : Byte) (s : State) : Host.Outcome State Fault Refusal :=
  commit s do
    let r ← regOperand ra s
    let npc ← pcPlus 3 s.pc
    return (s.setReg r imm).setPc npc

/-- PRN (R86). -/
def execPrn (ra : Byte) (s : State) : Host.Outcome State Fault Refusal :=
  commit s do
    let r ← regOperand ra s
    let npc ← pcPlus 2 s.pc
    return (s.emit (s.reg r)).setPc npc

end Sys2Proof.Machine
end

