-- ==== Sys2Proof/Machine/Stack.lean ====
section
/-! DEFINITION. The stack instructions: PUSH and POP (43_stack.md). An operand of 7 is legal, and what it does is the top-to-bottom
reading of the pseudocode (decision D2, log entry 6). -/

namespace Sys2Proof.Machine

/-- PUSH (R96). -/
def execPush (ra : Byte) (s : State) : Host.Outcome State Fault Refusal :=
  commit s do
    let r ← regOperand ra s
    let s1 ← pushByte (fun t => t.reg r) s
    let npc ← pcPlus 2 s.pc
    return s1.setPc npc

/-- POP (R97). -/
def execPop (ra : Byte) (s : State) : Host.Outcome State Fault Refusal :=
  commit s do
    let r ← regOperand ra s
    let v ← topByte s
    let s1 ← incSp (s.setReg r v)
    let npc ← pcPlus 2 s.pc
    return s1.setPc npc

end Sys2Proof.Machine
end

