-- ==== Sys2Proof/Machine/Subroutine.lean ====
section
/-! DEFINITION. Subroutine call and return: CALL and RET (44_subroutine.md), the only instructions that set the PC themselves (R102). -/

namespace Sys2Proof.Machine

/-- CALL (R100): the return address is `pc + 2`; the target is read after SP was decremented. -/
def execCall (ra : Byte) (s : State) : Host.Outcome State Fault Refusal :=
  commit s do
    let r ← regOperand ra s
    let returnAddress ← pcPlus 2 s.pc
    let s1 ← pushByte (fun _ => returnAddress) s
    return s1.setPc (s1.reg r)

/-- RET (R101). -/
def execRet (s : State) : Host.Outcome State Fault Refusal :=
  commit s do
    let v ← topByte s
    let s1 ← incSp s
    return s1.setPc v

end Sys2Proof.Machine
end

