-- ==== Sys2Proof/Machine/System.lean ====
section
/-! DEFINITION. System instructions: HLT (45_system.md); there is no other (R107). The unknown opcode is in Step.lean. -/

namespace Sys2Proof.Machine

/-- HLT (R105): only the status changes; the PC stays at the HLT. -/
def execHlt (s : State) : Host.Outcome State Fault Refusal := .next { s with status := .halted }

end Sys2Proof.Machine
end

