-- ==== Sys2Proof/Machine/Step.lean ====
section
/-! DEFINITION. One step: fetch, decode, execute (40_execution_cycle.md R71 to R73). -/

namespace Sys2Proof.Machine

/-- One step under the opcode map `opc`. While the status is `running` every step has a next state (00_scope.md R9): an instruction
executed, or a fault taken. Once the run has ended no step exists (40_execution_cycle.md R78). -/
def stepWith (opc : OpcodeMap) (s : State) : Host.Outcome State Fault Refusal :=
  match s.status with
  | .running =>
    match fetch s with
    | .error f => .next (enterFault f s)
    | .ok b =>
      match decodeWith opc b.ir b.opa b.opb with
      | .error (.unknownOpcode ir) => .next (enterFault (.unknownOpcode ir s.pc) s)
      | .ok i => exec i s
  | .halted => .fault .runHalted
  | .faulted f => .fault (.runFaulted f)

/-- One step under the default opcode map (30_encoding.md R54). -/
def step (s : State) : Host.Outcome State Fault Refusal := stepWith defaultOpc s

/-- The state with the instruction word `w` of the opcode table stored where `step` fetches its next instruction: the three bytes from
`pc` up, as far as the address space goes (log entry 8). -/
def State.withFetchWord (s : State) (nbits w : Nat) : State :=
  { s with mem := s.mem.writeBytes s.pc.toNat ((tableWordBytes nbits w).take (Config.memSize - s.pc.toNat)) }

end Sys2Proof.Machine
end

