-- ==== Sys2Proof/Machine/HostInterface.lean ====
section
/-! DEFINITION. What the host does to a machine (00_scope.md R9, 70_reset_and_hazards.md R141): `load`, `run`, the trace, and the
order in which it may do them. None of it is an instruction. -/

namespace Sys2Proof.Machine

/-- What `load` reports to the host (20_memory.md R45). None of them is a core fault. -/
inductive LoadReport where
  | loaded
  | emptyProgram
  | programTooLarge
deriving DecidableEq, Repr

/-- `load(bytes, origin)` (20_memory.md R44, R45): the origin is 0 where none is given (`load bytes (s := s)`); memory alone changes, and only
when all the bytes fit (decision D14, log entry 7). -/
def load (bytes : List Byte) (origin : Byte := 0) (s : State) : LoadReport × State :=
  if bytes = [] then (.emptyProgram, s)
  else if origin.toNat + bytes.length ≤ Config.memSize then
    (.loaded, { s with mem := s.mem.writeBytes origin.toNat bytes })
  else (.programTooLarge, s)

/-- `run()` under the opcode map `opc` and under fuel (40_execution_cycle.md R70): the state in which the run ended, or `none` when it
has not ended within `fuel` steps. -/
def runWith (opc : OpcodeMap) : Nat → State → Option State
  | 0, s => if s.status = .running then none else some s
  | fuel + 1, s =>
    if s.status = .running then
      match stepWith opc s with
      | .next t => runWith opc fuel t
      | .fault _ => none
      | .refused _ => none
    else some s

/-- `run()` under the default opcode map. -/
def run (fuel : Nat) (s : State) : Option State := runWith defaultOpc fuel s

/-- The fields of a trace line as data (60_exceptions.md R121): the PC, the bytes at `pc`, `pc + 1` and `pc + 2`, and the registers. -/
structure TraceRecord where
  pc : Byte
  bytes : Vector Byte 3
  x : Vector Byte 8
deriving DecidableEq, Repr

/-- Trace: a pure read; refused for `pc` 254 and 255 (R121, decision D21, log entry 9). -/
def trace (s : State) : Except Refusal TraceRecord :=
  match fetch s with
  | .ok b => .ok ⟨s.pc, #v[b.ir, b.opa, b.opb], s.x⟩
  | .error _ => .error .traceAtTopOfMemory

/-- One machine as the host uses it: the machine, and whether its run has begun. -/
structure Session where
  machine : State
  begun : Bool
deriving DecidableEq, Repr

/-- Reset is the creation of a machine (70_reset_and_hazards.md R140). -/
def Session.create (spInit : Byte) : Session := ⟨State.resetWith spInit, false⟩

/-- `load` is available until `run` has begun (20_memory.md R44, R141); the origin is 0 where none is given. -/
def Session.load (bytes : List Byte) (origin : Byte := 0) (h : Session) : Except Refusal (LoadReport × Session) :=
  if h.begun then .error .outsideHostProtocol
  else
    let result := Machine.load bytes origin h.machine
    .ok (result.1, { h with machine := result.2 })

/-- `run` once (R141, R143): `none` when the run has not ended within `fuel` steps. DESIGN CHOICE of the model (log entry 24): it may follow a
`load` that reported `ProgramTooLarge`, and then runs from the memory as it was before that `load`. -/
def Session.run (opc : OpcodeMap) (fuel : Nat) (h : Session) : Except Refusal (Option Session) :=
  if h.begun then .error .outsideHostProtocol
  else .ok ((runWith opc fuel h.machine).map fun t => ⟨t, true⟩)

end Sys2Proof.Machine
end

