-- ==== Sys2Proof/Safety.lean ====
section
/-! DEFINITION. What counts as a sound state and how a run ended, in the terms the statements use. -/

namespace Sys2Proof.Machine

/-- The diagnostic stream holds the record of the fault the status names, and nothing while there is none (10_state.md R17, R20;
60_exceptions.md R117). -/
def State.diagMatchesStatus (s : State) : Prop :=
  s.diag = match s.status with
    | .running => []
    | .halted => []
    | .faulted f => [f]

/-- The invariant of the machine: memory in its canonical form, and the diagnostic stream in step with the status. -/
structure State.Inv (s : State) : Prop where
  mem_wf : s.mem.wf
  diag_status : s.diagMatchesStatus

/-- `k` steps of a run from `s` to `t` (40_execution_cycle.md R70): each is a step of a running machine. -/
def StepsTo (opc : OpcodeMap) : Nat → State → State → Prop
  | 0, s, t => s = t
  | k + 1, s, t => s.status = .running ∧ ∃ u, stepWith opc s = .next u ∧ StepsTo opc k u t

/-- A completed run (40_execution_cycle.md R78): it ended by HLT. -/
def State.Completed (s : State) : Prop := s.status = .halted

/-- A failed run (40_execution_cycle.md R78): it ended by a fault. -/
def State.Failed (s : State) : Prop := ∃ f, s.status = .faulted f

end Sys2Proof.Machine
end

