-- ==== Sys2Proof/Certificates/Slice0/Obligations.lean ====
section
/-! DEFINITION. The statements for the provers. A statement about an instruction names its operand bytes; `ra.toNat < 8` says the byte is
a legal register operand (40_execution_cycle.md R76), and the register is then `s.x[ra.toNat]`. -/

open Sys2Proof Sys2Proof.Machine

/-! ## Decoding and encoding -/

/-- Decoding what the encoder writes gives the instruction back, for every instruction with every operand byte, every injective opcode
map, and whatever bytes follow. -/
def Obligations.DecodeOfEncodeIsTheInstruction : Prop :=
  ∀ (opc : OpcodeMap) (i : Instr) (rest : List Byte), opc.wf = true →
    decodeBytesWith opc (encodeWith opc i ++ rest) = .ok i

/-- The other direction: the bytes that decode to an instruction begin with its encoding. -/
def Obligations.DecodedBytesAreTheEncoding : Prop :=
  ∀ (opc : OpcodeMap) (ir opa opb : Byte) (i : Instr), decodeWith opc ir opa opb = .ok i →
    ∃ rest, [ir, opa, opb] = encodeWith opc i ++ rest

/-- The whole opcode byte is matched against the nine values of `OPC`; each byte value is exactly one instruction or unknown (R56), and a
step that fetched an unknown one takes `UnknownOpcode(ir, pc)` (R106). That this step changes nothing but the status and the diagnostic
stream is the spec's decision D9 (log entry 14). -/
def Obligations.OpcodeMatchedAsWholeByte : Prop :=
  ∀ opc : OpcodeMap, opc.wf = true →
    (∀ m opa opb, ∃ i, decodeWith opc (opc.code m) opa opb = .ok i ∧ i.mnemonic = m) ∧
    (∀ ir opa opb, (∀ m, opc.code m ≠ ir) → decodeWith opc ir opa opb = .error (.unknownOpcode ir)) ∧
    (∀ ir, (∃ m, opc.code m = ir ∧ ∀ n, opc.code n = ir → n = m) ∨ ∀ m, opc.code m ≠ ir) ∧
    ∀ s : State, s.status = .running → s.pc.toNat ≤ 253 → (∀ m, opc.code m ≠ s.mem.read s.pc.toNat) →
      stepWith opc s = .next { s with
        status := .faulted (.unknownOpcode (s.mem.read s.pc.toNat) s.pc)
        diag := s.diag ++ [.unknownOpcode (s.mem.read s.pc.toNat) s.pc] }

/-- After a successful fetch, a match of `ir` selects the instruction to execute, no match raises `UnknownOpcode(ir, pc)`, and the operand
bytes play no part in the choice (R72). What raising it leaves, the state unchanged but for the status and the diagnostic stream
(`enterFault`), is the spec's decision D9 (log entry 14). -/
def Obligations.DecodeSelectsByOpcodeAlone : Prop :=
  ∀ opc : OpcodeMap,
    (∀ s b i, s.status = .running → fetch s = .ok b → decodeWith opc b.ir b.opa b.opb = .ok i → stepWith opc s = exec i s) ∧
    (∀ s b, s.status = .running → fetch s = .ok b → (∀ m, opc.code m ≠ b.ir) →
      stepWith opc s = .next (enterFault (.unknownOpcode b.ir s.pc) s)) ∧
    ∀ ir opa opb opa' opb', (decodeWith opc ir opa opb).map Instr.mnemonic = (decodeWith opc ir opa' opb').map Instr.mnemonic

/-- R52: the width is a function of the opcode alone; the fetch reads three bytes whatever the width; those beyond it are discarded. -/
def Obligations.WidthIsFixedByTheOpcode : Prop :=
  (∀ opc i, (encodeWith opc i).length = match i.mnemonic with
    | .hlt => 1 | .ldi => 3 | .prn => 2 | .add => 3 | .mul => 3 | .push => 2 | .pop => 2 | .call => 2 | .ret => 1) ∧
  (∀ s : State, s.pc.toNat ≤ 253 →
    fetch s = .ok ⟨s.mem.read s.pc.toNat, s.mem.read (s.pc.toNat + 1), s.mem.read (s.pc.toNat + 2)⟩) ∧
  ∀ opc ir opa opb opa' opb' i, decodeWith opc ir opa opb = .ok i →
    (i.mnemonic.width = 2 → decodeWith opc ir opa opb' = .ok i) ∧ (i.mnemonic.width = 1 → decodeWith opc ir opa' opb' = .ok i)

/-- The default words of the opcode table (PRESUMED by the spec, log entry 2) decode to their instructions; one per row, written out
from the formats of 30_encoding.md. -/
def Obligations.DefaultWordsDecode : Prop :=
  decode 0b00000001 0b11111111 0b11111111 = .ok .hlt ∧
  decode 0b10000010 0b00000011 0b11111111 = .ok (.ldi 3 255) ∧
  decode 0b01000111 0b00000111 0b00000000 = .ok (.prn 7) ∧
  decode 0b10100000 0b00000001 0b00000010 = .ok (.add 1 2) ∧
  decode 0b10100010 0b00000001 0b00000010 = .ok (.mul 1 2) ∧
  decode 0b01000101 0b00000100 0b00000000 = .ok (.push 4) ∧
  decode 0b01000110 0b00000101 0b00000000 = .ok (.pop 5) ∧
  decode 0b01010000 0b00000110 0b00000000 = .ok (.call 6) ∧
  decode 0b00010001 0b00000000 0b00000000 = .ok .ret ∧
  decode 0b00000000 0b00000000 0b00000000 = .error (.unknownOpcode 0)

/-- 247 of the 256 byte values are unknown opcodes, under every injective map. -/
def Obligations.UnknownOpcodesNumber247 : Prop :=
  ∀ opc : OpcodeMap, opc.wf = true →
    ((List.range 256).filter fun n => (lookupOpcode opc (BitVec.ofNat 8 n)).isNone).length = 247

/-! ## Registers, memory, the ALU -/

/-- The registers are one flat file: a write to one is read back from it and from no other, none is hard-wired, and SP is register 7. -/
def Obligations.RegistersAreOneFlatFile : Prop :=
  ∀ (s : State) (r q : RegIdx) (v : Byte),
    (s.setReg r v).reg q = (if q = r then v else s.reg q) ∧ s.sp = s.reg 7

/-- R31: a read of an address 0 to 255 gives the cell; any other integer raises `OutOfBoundsAccess(MEM, a)`. -/
def Obligations.MemReadContract : Prop :=
  ∀ (a : Int) (s : State),
    (0 ≤ a ∧ a ≤ 255 → memRead a s = .ok (s.mem.read a.toNat)) ∧
    (¬ (0 ≤ a ∧ a ≤ 255) → memRead a s = .error (.outOfBoundsAccess .mem a s.pc))

/-- R32: a write to an address 0 to 255 changes that cell and nothing else; any other integer raises `OutOfBoundsAccess(MEM, a)`. -/
def Obligations.MemWriteContract : Prop :=
  ∀ (a : Int) (v : Byte) (s : State),
    (0 ≤ a ∧ a ≤ 255 → ∃ t, memWrite a v s = .ok t ∧ t = { s with mem := t.mem } ∧
      t.mem.read a.toNat = v ∧ ∀ b, b ≠ a.toNat → t.mem.read b = s.mem.read b) ∧
    (¬ (0 ≤ a ∧ a ≤ 255) → memWrite a v s = .error (.outOfBoundsAccess .mem a s.pc))

/-- Two canonical memories in which every cell reads the same are the same data (the model's own representation, log entry 3). -/
def Obligations.CanonicalMemoryIsExtensional : Prop :=
  ∀ m n : Memory, m.wf → n.wf → (∀ a, a < 256 → m.read a = n.read a) → m = n

/-- The ALU: a closed selection of two operations, each exact and reduced modulo 256; it reads its two registers, writes the first,
and changes nothing else. -/
def Obligations.AluWritesTheValueModulo256 : Prop :=
  (∀ a b : Byte, (aluValue .add a b).toNat = (a.toNat + b.toNat) % 256 ∧ (aluValue .mul a b).toNat = (a.toNat * b.toNat) % 256) ∧
  (∀ op : AluOp, op = .add ∨ op = .mul) ∧
  ∀ (op : AluOp) (a b : RegIdx) (s : State),
    alu op a b s = { s with x := (alu op a b s).x } ∧
    (alu op a b s).reg a = aluValue op (s.reg a) (s.reg b) ∧ ∀ q, q ≠ a → (alu op a b s).reg q = s.reg q

/-! ## Reset -/

/-- Every piece of state after reset, for every `SP_INIT`; the default 244 is the spec's decision D1 (log entry 1). -/
def Obligations.ResetState : Prop :=
  (∀ (spInit : Byte) (r : RegIdx), (State.resetWith spInit).reg r = if r = 7 then spInit else 0) ∧
  (∀ spInit a, (State.resetWith spInit).mem.read a = 0) ∧
  (∀ spInit, (State.resetWith spInit).pc = 0 ∧ (State.resetWith spInit).status = .running ∧
    (State.resetWith spInit).output = [] ∧ (State.resetWith spInit).diag = []) ∧
  State.reset = State.resetWith 244

/-- R23: after reset the PC is 0 and the status is RUNNING, and `load` does not move the entry point. -/
def Obligations.EntryPointIsAddressZero : Prop :=
  (∀ spInit, (State.resetWith spInit).pc = 0 ∧ (State.resetWith spInit).status = .running) ∧
  ∀ bytes origin s, (load bytes origin s).2.pc = s.pc

/-- R24: after reset memory is 0 and both streams are empty, and memory then changes only by `load` and by PUSH and CALL. -/
def Obligations.MemoryChangesOnlyByPushAndCall : Prop :=
  (∀ spInit a, (State.resetWith spInit).mem.read a = 0) ∧
  (∀ spInit, (State.resetWith spInit).output = [] ∧ (State.resetWith spInit).diag = []) ∧
  ∀ opc s t, stepWith opc s = .next t → t.mem = s.mem ∨
    ∃ b ra, fetch s = .ok b ∧ (decodeWith opc b.ir b.opa b.opb = .ok (.push ra) ∨ decodeWith opc b.ir b.opa b.opb = .ok (.call ra))

/-- A run with nothing loaded ends at its first step in `UnknownOpcode(0x00, 0)`, with an empty output stream, for every `SP_INIT`: under every
opcode map that does not assign 0x00 (R45), and so under the default one, whose numbers the spec presumes (decision D7, log entry 2). That
nothing but the status and the diagnostic stream changes is the spec's decision D9 (log entry 14). -/
def Obligations.EmptyMemoryEndsInUnknownOpcode : Prop :=
  (∀ (opc : OpcodeMap) (spInit : Byte), (∀ m, opc.code m ≠ 0) →
    stepWith opc (State.resetWith spInit) = .next { State.resetWith spInit with
      status := .faulted (.unknownOpcode 0 0), diag := [.unknownOpcode 0 0] }) ∧
  ∀ spInit, step (State.resetWith spInit) = .next { State.resetWith spInit with
    status := .faulted (.unknownOpcode 0 0), diag := [.unknownOpcode 0 0] }

/-! ## Instructions that complete -/

/-- LDI: the register takes the immediate, the PC advances by 3, nothing else changes. -/
def Obligations.LdiLoadsTheImmediate : Prop :=
  ∀ (ra imm : Byte) (s : State) (h : ra.toNat < 8), s.pc.toNat + 3 ≤ 255 →
    exec (.ldi ra imm) s = .next { s with x := s.x.set ra.toNat imm h, pc := BitVec.ofNat 8 (s.pc.toNat + 3) }

/-- PRN: the register's byte is appended to the output stream, the PC advances by 2, nothing else changes. -/
def Obligations.PrnEmitsTheRegister : Prop :=
  ∀ (ra : Byte) (s : State) (_ : ra.toNat < 8), s.pc.toNat + 2 ≤ 255 →
    exec (.prn ra) s = .next { s with output := s.output ++ [s.x[ra.toNat]], pc := BitVec.ofNat 8 (s.pc.toNat + 2) }

/-- ADD: the first register takes the sum modulo 256, the PC advances by 3, nothing else changes. -/
def Obligations.AddWritesTheSumModulo256 : Prop :=
  ∀ (ra rb : Byte) (s : State) (h : ra.toNat < 8) (_ : rb.toNat < 8), s.pc.toNat + 3 ≤ 255 →
    exec (.add ra rb) s = .next { s with
      x := s.x.set ra.toNat (BitVec.ofNat 8 ((s.x[ra.toNat].toNat + s.x[rb.toNat].toNat) % 256)) h
      pc := BitVec.ofNat 8 (s.pc.toNat + 3) }

/-- MUL: the first register takes the product modulo 256, the PC advances by 3, nothing else changes. -/
def Obligations.MulWritesTheProductModulo256 : Prop :=
  ∀ (ra rb : Byte) (s : State) (h : ra.toNat < 8) (_ : rb.toNat < 8), s.pc.toNat + 3 ≤ 255 →
    exec (.mul ra rb) s = .next { s with
      x := s.x.set ra.toNat (BitVec.ofNat 8 ((s.x[ra.toNat].toNat * s.x[rb.toNat].toNat) % 256)) h
      pc := BitVec.ofNat 8 (s.pc.toNat + 3) }

/-- PUSH: SP is decremented and the register is stored at the new SP. With operand 7 the value stored is the decremented SP, which is
the spec's decision D2 (log entry 6). -/
def Obligations.PushStoresAtTheDecrementedSp : Prop :=
  ∀ (ra : Byte) (s : State) (_ : ra.toNat < 8), s.sp.toNat ≠ 0 → s.pc.toNat + 2 ≤ 255 →
    exec (.push ra) s = .next { s with
      x := s.x.set 7 (BitVec.ofNat 8 (s.sp.toNat - 1))
      mem := s.mem.write (s.sp.toNat - 1) (if ra.toNat = 7 then BitVec.ofNat 8 (s.sp.toNat - 1) else s.x[ra.toNat])
      pc := BitVec.ofNat 8 (s.pc.toNat + 2) }

/-- POP: the register takes the byte at SP and SP is incremented. With operand 7 the increment is applied to the popped byte, which is
the spec's decision D2 (log entry 6). -/
def Obligations.PopLoadsFromSp : Prop :=
  ∀ (ra : Byte) (s : State) (h : ra.toNat < 8), s.pc.toNat + 2 ≤ 255 →
    (ra.toNat ≠ 7 → s.sp.toNat ≠ 255 →
      exec (.pop ra) s = .next { s with
        x := (s.x.set ra.toNat (s.mem.read s.sp.toNat) h).set 7 (BitVec.ofNat 8 (s.sp.toNat + 1))
        pc := BitVec.ofNat 8 (s.pc.toNat + 2) }) ∧
    (ra.toNat = 7 → (s.mem.read s.sp.toNat).toNat ≠ 255 →
      exec (.pop ra) s = .next { s with
        x := s.x.set 7 (BitVec.ofNat 8 ((s.mem.read s.sp.toNat).toNat + 1))
        pc := BitVec.ofNat 8 (s.pc.toNat + 2) })

/-- CALL: the return address `pc + 2` is pushed and the PC takes the register's value. With operand 7 the target is the decremented
SP, which is the spec's decision D2 (log entry 6). -/
def Obligations.CallPushesTheReturnAddress : Prop :=
  ∀ (ra : Byte) (s : State) (_ : ra.toNat < 8), s.sp.toNat ≠ 0 → s.pc.toNat + 2 ≤ 255 →
    exec (.call ra) s = .next { s with
      x := s.x.set 7 (BitVec.ofNat 8 (s.sp.toNat - 1))
      mem := s.mem.write (s.sp.toNat - 1) (BitVec.ofNat 8 (s.pc.toNat + 2))
      pc := if ra.toNat = 7 then BitVec.ofNat 8 (s.sp.toNat - 1) else s.x[ra.toNat] }

/-- RET: the PC takes the byte at SP and SP is incremented, at every PC. -/
def Obligations.RetPopsThePc : Prop :=
  ∀ s : State, s.sp.toNat ≠ 255 →
    exec .ret s = .next { s with
      x := s.x.set 7 (BitVec.ofNat 8 (s.sp.toNat + 1))
      pc := s.mem.read s.sp.toNat }

/-- HLT: the status becomes HALTED and nothing else changes; that the PC stays is the spec's decision D19 (log entry 11). -/
def Obligations.HltHalts : Prop :=
  ∀ s : State, exec .hlt s = .next { s with status := .halted }

/-! ## Faults -/

/-- `reg(b)` is the index `b` when `b <= 7` and raises `OutOfBoundsAccess(REG, b)` otherwise (R76; the whole byte, no masking, is the spec's
decision D12, log entry 13). LDI, PRN, ADD, MUL, PUSH, POP and CALL apply it to `opa`, ADD and MUL to `opb`, before their stack and PC checks:
that order (R74) is the spec's decision D10 (log entry 16), and that nothing is committed its decision D9 (log entry 14). LDI's immediate is
not checked (an unused operand byte is no part of an instruction). -/
def Obligations.RegisterOperandAbove7Faults : Prop :=
  (∀ (b : Byte) (s : State),
    (∀ h : b.toNat ≤ 7, regOperand b s = .ok ⟨b.toNat, by omega⟩) ∧
    (8 ≤ b.toNat → regOperand b s = .error (.outOfBoundsAccess .reg b.toNat s.pc))) ∧
  (∀ (ra rb : Byte) (s : State), 8 ≤ ra.toNat →
    ∀ i ∈ [Instr.ldi ra rb, .prn ra, .add ra rb, .mul ra rb, .push ra, .pop ra, .call ra],
      exec i s = .next (enterFault (.outOfBoundsAccess .reg ra.toNat s.pc) s)) ∧
  (∀ (ra rb : Byte) (s : State), ra.toNat ≤ 7 → 8 ≤ rb.toNat →
    ∀ i ∈ [Instr.add ra rb, .mul ra rb], exec i s = .next (enterFault (.outOfBoundsAccess .reg rb.toNat s.pc) s)) ∧
  ∀ (ra imm : Byte) (s t : State), ra.toNat ≤ 7 → exec (.ldi ra imm) s = .next t →
    t.status = s.status ∨ t.status = .faulted (.outOfBoundsAccess .mem (s.pc.toNat + 3) s.pc)

/-- A PC advance past 255 faults and nothing is committed: LDI, ADD and MUL with legal operands. The spec's decision D4 (log entry 4); that
nothing is committed is its decision D9 (log entry 14). -/
def Obligations.PcAdvancePast255Faults : Prop :=
  ∀ (ra rb imm : Byte) (s : State), ra.toNat < 8 → rb.toNat < 8 → 255 < s.pc.toNat + 3 →
    ∀ i ∈ [Instr.ldi ra imm, .add ra rb, .mul ra rb],
      exec i s = .next (enterFault (.outOfBoundsAccess .mem (s.pc.toNat + 3) s.pc) s)

/-- A push with SP 0 faults at address -1 and stores nothing: PUSH and CALL. The spec's decision D5 (log entry 4); that nothing is committed
is its decision D9 (log entry 14). -/
def Obligations.PushWithSpZeroFaults : Prop :=
  ∀ (ra : Byte) (s : State), ra.toNat < 8 → s.sp.toNat = 0 → s.pc.toNat + 2 ≤ 255 →
    ∀ i ∈ [Instr.push ra, .call ra], exec i s = .next (enterFault (.outOfBoundsAccess .mem (-1) s.pc) s)

/-- A pop whose incremented SP is 256 faults and commits nothing: RET and POP of X0 to X6 with SP 255, the spec's decision D6 (log entry 4);
POP X7 with a popped byte of 255, which rests on the top-to-bottom reading of operand 7 too (R97, decision D2, log entry 6). That nothing is
committed is decision D9 (log entry 14). -/
def Obligations.PopPastSp255Faults : Prop :=
  ∀ s : State,
    (s.sp.toNat = 255 → exec .ret s = .next (enterFault (.outOfBoundsAccess .mem 256 s.pc) s)) ∧
    (∀ ra : Byte, ra.toNat < 7 → s.sp.toNat = 255 →
      exec (.pop ra) s = .next (enterFault (.outOfBoundsAccess .mem 256 s.pc) s)) ∧
    (∀ ra : Byte, ra.toNat = 7 → (s.mem.read s.sp.toNat).toNat = 255 →
      exec (.pop ra) s = .next (enterFault (.outOfBoundsAccess .mem 256 s.pc) s))

/-- The execute part alone, at a PC of 254 or 255 that no fetch gets past: the advance of PRN, PUSH and POP and the return address of
CALL fault like every PC above 255. The model's own choice (log entry 10). For POP X7 the increment is that of the popped byte, the spec's
decision D2 (log entry 6); that nothing is committed is its decision D9 (log entry 14). -/
def Obligations.TwoByteAdvancePast255Faults : Prop :=
  ∀ (ra : Byte) (s : State), ra.toNat < 8 → 253 < s.pc.toNat →
    (∀ i ∈ [Instr.prn ra, .call ra], exec i s = .next (enterFault (.outOfBoundsAccess .mem (s.pc.toNat + 2) s.pc) s)) ∧
    (s.sp.toNat ≠ 0 → exec (.push ra) s = .next (enterFault (.outOfBoundsAccess .mem (s.pc.toNat + 2) s.pc) s)) ∧
    ((if ra.toNat = 7 then (s.mem.read s.sp.toNat).toNat else s.sp.toNat) ≠ 255 →
      exec (.pop ra) s = .next (enterFault (.outOfBoundsAccess .mem (s.pc.toNat + 2) s.pc) s))

/-- A step that begins at 254 or 255 faults in fetch at address 256, whatever the bytes and the opcode map. The spec's decision D3
(log entry 4); that nothing else changes is its decision D9 (log entry 14). -/
def Obligations.FetchPastTheTopFaults : Prop :=
  ∀ (opc : OpcodeMap) (s : State), s.status = .running → 254 ≤ s.pc.toNat →
    stepWith opc s = .next (enterFault (.outOfBoundsAccess .mem 256 s.pc) s)

/-- R112: `UnknownOpcode` has one cause, an opcode byte outside the nine values after a successful fetch, and records it and the PC. -/
def Obligations.UnknownOpcodeHasOneCause : Prop :=
  ∀ (opc : OpcodeMap) (s t : State) (opcode address : Byte), stepWith opc s = .next t →
    (t.status = .faulted (.unknownOpcode opcode address) ↔
      ∃ b, fetch s = .ok b ∧ opcode = b.ir ∧ address = s.pc ∧ ∀ m, opc.code m ≠ b.ir)

/-- `OutOfBoundsAccess`, every cause (the table of 60_exceptions.md R111): no other situation raises it. The first row is the spec's decision
D3, the last three are its decisions D5, D6 and D4 (log entry 4); that POP X7 faults on the popped byte and not on SP is its reading of
operand 7 (R97, decision D2, log entry 6); the register rows take the whole operand byte (decision D12, log entry 13); and the record's
fields are its decision D11 (log entry 17). -/
def Obligations.OutOfBoundsCausesAreComplete : Prop :=
  ∀ (opc : OpcodeMap) (s t : State) (kind : BoundsKind) (index : Int) (pc : Byte), stepWith opc s = .next t →
    t.status = .faulted (.outOfBoundsAccess kind index pc) →
    pc = s.pc ∧
    ((254 ≤ s.pc.toNat ∧ kind = .mem ∧ index = 256) ∨
      ∃ b i, fetch s = .ok b ∧ decodeWith opc b.ir b.opa b.opb = .ok i ∧
        ((kind = .reg ∧ index = b.opa.toNat ∧ 8 ≤ b.opa.toNat ∧ i.mnemonic ∈ [.ldi, .prn, .add, .mul, .push, .pop, .call]) ∨
          (kind = .reg ∧ index = b.opb.toNat ∧ 8 ≤ b.opb.toNat ∧ i.mnemonic ∈ [.add, .mul]) ∨
          (kind = .mem ∧ index = -1 ∧ s.sp = 0 ∧ i.mnemonic ∈ [.push, .call]) ∨
          (kind = .mem ∧ index = 256 ∧ i.mnemonic ∈ [.pop, .ret] ∧
            if i = .pop 7 then s.mem.read s.sp.toNat = 255 else s.sp = 255) ∨
          (kind = .mem ∧ index = 256 ∧ s.pc = 253 ∧ i.mnemonic ∈ [.ldi, .add, .mul])))

/-- `UnsupportedAluOperation` is unreachable: no step raises it. -/
def Obligations.UnsupportedAluIsUnreachable : Prop :=
  ∀ (opc : OpcodeMap) (s t : State), stepWith opc s = .next t → t.status ≠ .faulted .unsupportedAluOperation

/-- Fault entry: a step that ends in a fault changes the status and appends the record to the diagnostic stream, and nothing else: no
register, no cell, not the PC, not the output. Check-then-commit is the spec's
decision D9 (log entry 14), the status value its decision D8 (log entry 12). -/
def Obligations.FaultEntryIsPrecise : Prop :=
  ∀ (opc : OpcodeMap) (s t : State) (f : FaultRecord), stepWith opc s = .next t → t.status = .faulted f →
    t = { s with status := .faulted f, diag := s.diag ++ [f] }

/-! ## The step as a whole -/

/-- When the three bytes at the PC decode to an instruction, the step is exactly its execution: nothing stands around it. -/
def Obligations.StepRunsTheDecodedInstruction : Prop :=
  ∀ (opc : OpcodeMap) (s : State) (i : Instr), s.status = .running → s.pc.toNat ≤ 253 →
    decodeWith opc (s.mem.read s.pc.toNat) (s.mem.read (s.pc.toNat + 1)) (s.mem.read (s.pc.toNat + 2)) = .ok i →
    stepWith opc s = exec i s

/-- A running machine always has a next state, running, halted, or faulted with its record on the diagnostic stream: every byte pattern
at every PC has one of the three outcomes, and there is no refusal and no stuck state among them. -/
def Obligations.RunningStepHasANextState : Prop :=
  ∀ (opc : OpcodeMap) (s : State), s.status = .running →
    ∃ t, stepWith opc s = .next t ∧ (t.status = .running ∨ t.status = .halted ∨ ∃ f, t.status = .faulted f ∧ f ∈ t.diag)

/-- A run that has ended has no further step. The status FAULTED is the spec's decision D8 (log entry 12). -/
def Obligations.EndedRunHasNoStep : Prop :=
  ∀ (opc : OpcodeMap) (s : State),
    (s.status = .halted → stepWith opc s = .fault .runHalted) ∧
    (∀ f, s.status = .faulted f → stepWith opc s = .fault (.runFaulted f))

/-- A step halts the machine exactly when its fetch succeeded and the opcode byte it fetched is HLT's. -/
def Obligations.OnlyHltHalts : Prop :=
  ∀ (opc : OpcodeMap) (s t : State), opc.wf = true → stepWith opc s = .next t →
    (t.status = .halted ↔ ∃ b, fetch s = .ok b ∧ b.ir = opc.code .hlt)

/-- The output stream is append-only, and only PRN appends: one byte, the register's. -/
def Obligations.OutputGrowsOnlyByPrn : Prop :=
  ∀ (opc : OpcodeMap) (s t : State), stepWith opc s = .next t →
    t.output = s.output ∨
    ∃ (b : Fetched) (h : b.opa.toNat < 8), fetch s = .ok b ∧ decodeWith opc b.ir b.opa b.opb = .ok (.prn b.opa) ∧
      t.output = s.output ++ [s.x[b.opa.toNat]]

/-- The PC after a step (R75): unchanged when the run ended in it; otherwise the width added exactly, but for CALL and RET, which set it.
Several clauses are the spec's decisions: that HLT leaves the PC is D19 (log entry 11), that a fault does is D9 (log entry 14), the exact
advance that never wraps is D4 (log entry 4), and the target of CALL X7, the register after the decrement, is D2 (log entry 6). -/
def Obligations.PcAfterAStep : Prop :=
  ∀ (opc : OpcodeMap) (s t : State), stepWith opc s = .next t →
    (t.status ≠ .running → t.pc = s.pc) ∧
    (t.status = .running → ∃ b i, fetch s = .ok b ∧ decodeWith opc b.ir b.opa b.opb = .ok i ∧
      match i with
      | .call ra => ∃ h : ra.toNat < 8, t.pc = t.x[ra.toNat]
      | .ret => t.pc = s.mem.read s.sp.toNat
      | j => t.pc.toNat = s.pc.toNat + j.mnemonic.width)

/-- A byte stored by one step is fetched by the very next: after a PUSH or a CALL that completed, with any operand, each of the three bytes
of the next fetch is the stored byte where its address is the one stored to, and the old byte elsewhere. Immediate visibility is the spec's
decision D15 (log entry 15), the byte that PUSH X7 stores and the target of CALL X7 its decision D2 (log entry 6). -/
def Obligations.FetchSeesAStoreAtOnce : Prop :=
  ∀ (ra : Byte) (s t : State) (a : Byte) (_ : ra.toNat < 8), pushAddress s = .ok a → t.status = .running → t.pc.toNat ≤ 253 →
    (exec (.push ra) s = .next t →
      let cell (b : Nat) : Byte :=
        if b = a.toNat then (if ra.toNat = 7 then a else s.x[ra.toNat]) else s.mem.read b
      fetch t = .ok ⟨cell t.pc.toNat, cell (t.pc.toNat + 1), cell (t.pc.toNat + 2)⟩) ∧
    (exec (.call ra) s = .next t →
      let cell (b : Nat) : Byte := if b = a.toNat then BitVec.ofNat 8 (s.pc.toNat + 2) else s.mem.read b
      fetch t = .ok ⟨cell t.pc.toNat, cell (t.pc.toNat + 1), cell (t.pc.toNat + 2)⟩)

/-! ## Properties of instruction pairs -/

/-- ADD, then PRN of the destination, prints the sum modulo 256; MUL, then PRN, prints the product modulo 256. -/
def Obligations.AluThenPrnPrintsTheResult : Prop :=
  ∀ (ra rb : Byte) (s : State) (_ : ra.toNat < 8) (_ : rb.toNat < 8), s.pc.toNat + 5 ≤ 255 →
    (∃ t u, exec (.add ra rb) s = .next t ∧ exec (.prn ra) t = .next u ∧
      u.output = s.output ++ [BitVec.ofNat 8 ((s.x[ra.toNat].toNat + s.x[rb.toNat].toNat) % 256)]) ∧
    (∃ t u, exec (.mul ra rb) s = .next t ∧ exec (.prn ra) t = .next u ∧
      u.output = s.output ++ [BitVec.ofNat 8 ((s.x[ra.toNat].toNat * s.x[rb.toNat].toNat) % 256)])

/-- PUSH then POP moves the value and leaves SP as it was, for operands 0 to 6 (the same or different), and for operand 7 twice
(decision D2, log entry 6). -/
def Obligations.PushThenPopRestoresSp : Prop :=
  ∀ s : State, s.sp.toNat ≠ 0 → s.pc.toNat + 4 ≤ 255 →
    (∀ (ra rb : Byte) (_ : ra.toNat < 7) (_ : rb.toNat < 7), ∃ t u, exec (.push ra) s = .next t ∧ exec (.pop rb) t = .next u ∧
      u.x = s.x.set rb.toNat s.x[ra.toNat] ∧ u.pc.toNat = s.pc.toNat + 4) ∧
    (∃ t u, exec (.push 7) s = .next t ∧ exec (.pop 7) t = .next u ∧ u.x = s.x ∧ u.pc.toNat = s.pc.toNat + 4)

/-- CALL, then a RET that pops the byte the CALL pushed (whatever ran between), returns to the CALL's address plus 2 with SP as before
the CALL. -/
def Obligations.CallThenRetReturnsAfterTheCall : Prop :=
  ∀ (ra : Byte) (s t u : State), ra.toNat < 8 → s.sp.toNat ≠ 0 → s.pc.toNat + 2 ≤ 255 → exec (.call ra) s = .next t →
    u.sp = t.sp → u.mem.read u.sp.toNat = t.mem.read t.sp.toNat →
    ∃ v, exec .ret u = .next v ∧ v.pc.toNat = s.pc.toNat + 2 ∧ v.sp = s.sp

/-- PUSH then RET is a jump to the address in the register, at no cost in stack, for operands 0 to 6. -/
def Obligations.PushThenRetJumps : Prop :=
  ∀ (ra : Byte) (s : State) (_ : ra.toNat < 7), s.sp.toNat ≠ 0 → s.pc.toNat + 2 ≤ 255 →
    ∃ t u, exec (.push ra) s = .next t ∧ exec .ret t = .next u ∧ u.pc = s.x[ra.toNat] ∧ u.x = s.x

/-- LDI is idempotent under re-execution (41_data_movement_output.md R85): the first of two loads the immediate, the second changes no
register, no cell and neither stream; both complete, so the status stays and the PC has advanced by 6. -/
def Obligations.LdiIsIdempotent : Prop :=
  ∀ (ra imm : Byte) (s : State) (_ : ra.toNat < 8), s.pc.toNat + 6 ≤ 255 →
    ∃ t u, exec (.ldi ra imm) s = .next t ∧ exec (.ldi ra imm) t = .next u ∧
      t.x[ra.toNat] = imm ∧ u.x = t.x ∧ u.mem = t.mem ∧ u.output = t.output ∧ u.diag = t.diag ∧
      t.status = s.status ∧ u.status = s.status ∧ u.pc.toNat = s.pc.toNat + 6

/-! ## Invariants -/

/-- Every step keeps the invariant: canonical memory, and the diagnostic stream in step with the status (none, or the one record of the
fault the status names). -/
def Obligations.StepKeepsInv : Prop :=
  ∀ (opc : OpcodeMap) (s t : State), s.Inv → stepWith opc s = .next t → t.Inv

/-- The invariant holds after reset, for every `SP_INIT`. -/
def Obligations.ResetMeetsInv : Prop :=
  ∀ spInit, (State.resetWith spInit).Inv

/-- `load` keeps the invariant, whatever it reports. -/
def Obligations.LoadKeepsInv : Prop :=
  ∀ bytes origin (s : State), s.Inv → (load bytes origin s).2.Inv

/-! ## The host's operations -/

/-- `load` of bytes that fit places them at ascending addresses from the origin and changes nothing else. -/
def Obligations.LoadPlacesTheBytes : Prop :=
  ∀ (bytes : List Byte) (origin : Byte) (s : State), bytes ≠ [] → origin.toNat + bytes.length ≤ 256 →
    ∃ t, load bytes origin s = (.loaded, t) ∧ t = { s with mem := t.mem } ∧
      (∀ (i : Nat) (h : i < bytes.length), t.mem.read (origin.toNat + i) = bytes[i]) ∧
      ∀ a, a < origin.toNat ∨ origin.toNat + bytes.length ≤ a → t.mem.read a = s.mem.read a

/-- The origin of `load` is 0 where none is given (R44): bytes that fit stand from address 0 up, and a session's `load` has the same default. -/
def Obligations.LoadOriginIsZeroByDefault : Prop :=
  (∀ (bytes : List Byte) (s : State), bytes ≠ [] → bytes.length ≤ 256 →
    ∃ t, load bytes (s := s) = (.loaded, t) ∧ ∀ (i : Nat) (h : i < bytes.length), t.mem.read i = bytes[i]) ∧
  ∀ (bytes : List Byte) (h : Session), Session.load bytes (h := h) = Session.load bytes 0 h

/-- `load` of nothing reports `EmptyProgram`, of too much `ProgramTooLarge`; nothing is written in either. All-or-nothing is the spec's
decision D14 (log entry 7). -/
def Obligations.LoadReportsItsConditions : Prop :=
  ∀ (bytes : List Byte) (origin : Byte) (s : State),
    load [] origin s = (.emptyProgram, s) ∧
    (256 < origin.toNat + bytes.length → load bytes origin s = (.programTooLarge, s))

/-- `run` repeats the step while the status is RUNNING (R70): the state it returns is that of a completed (HLT) or a failed (a fault) run
(R78), reached from `s` by at most `fuel` steps, each of a running machine; and when `s` so reaches an ended `t` in `k` steps, `run`
returns `t` under every fuel from `k` up. The fuel is the model's (log entry 20), the status FAULTED the spec's decision D8 (log entry 12). -/
def Obligations.RunReturnsTheEndedRun : Prop :=
  ∀ opc : OpcodeMap,
    (∀ (fuel : Nat) (s t : State), runWith opc fuel s = some t →
      (t.Completed ∨ t.Failed) ∧ ∃ k, k ≤ fuel ∧ StepsTo opc k s t) ∧
    ∀ (k : Nat) (s t : State), StepsTo opc k s t → t.status ≠ .running →
      ∀ fuel, k ≤ fuel → runWith opc fuel s = some t

/-- A session whose run has begun refuses `load` and `run` as outside the protocol; one whose run has not begun accepts them: `load` leaves it
so, and after `run` has returned it has begun. The spec's decision D14 (log entry 7); that `run` is accepted after a `load` that reported
`ProgramTooLarge` too is the model's choice (log entry 24). -/
def Obligations.SessionRunsOnce : Prop :=
  (∀ h : Session, h.begun = true →
    (∀ bytes origin, Session.load bytes origin h = .error .outsideHostProtocol) ∧
    ∀ opc fuel, Session.run opc fuel h = .error .outsideHostProtocol) ∧
  ∀ h : Session, h.begun = false →
    (∀ bytes origin, Session.load bytes origin h =
      .ok ((load bytes origin h.machine).1, ⟨(load bytes origin h.machine).2, false⟩)) ∧
    ∀ opc fuel, Session.run opc fuel h = .ok ((runWith opc fuel h.machine).map fun t => ⟨t, true⟩)

/-- Trace gives the PC, the three bytes at it and the registers; it is refused at 254 and 255, the spec's decision D21 (log entry 9). -/
def Obligations.TraceGivesTheFields : Prop :=
  ∀ s : State,
    (s.pc.toNat ≤ 253 → trace s = .ok ⟨s.pc,
      #v[s.mem.read s.pc.toNat, s.mem.read (s.pc.toNat + 1), s.mem.read (s.pc.toNat + 2)], s.x⟩) ∧
    (253 < s.pc.toNat → trace s = .error .traceAtTopOfMemory)

/-! ## Frames -/

/-- LDI, ADD and MUL change no register but the one named by `ra`, no cell of memory, and not the output; the status and the diagnostic
stream stay too unless the form faulted, and then every register stays (decision D9, log entry 14). -/
def Obligations.LdiAddMulFrame : Prop :=
  ∀ (ra rb imm : Byte) (s t : State), ∀ i ∈ [Instr.ldi ra imm, .add ra rb, .mul ra rb], exec i s = .next t →
    (∀ r : RegIdx, r.val ≠ ra.toNat → t.reg r = s.reg r) ∧ (∀ a, t.mem.read a = s.mem.read a) ∧ t.output = s.output ∧
    ((t.status = s.status ∧ t.diag = s.diag) ∨ ∃ f, t.status = .faulted f ∧ t.diag = s.diag ++ [f] ∧ t.x = s.x)

/-- PRN and HLT change no register and no cell of memory; PRN changes neither the status nor the diagnostic stream unless it faulted, and then
not the output (decision D9, log entry 14); HLT changes neither stream, and not the PC, which is the spec's decision D19 (log entry 11). -/
def Obligations.PrnHltFrame : Prop :=
  ∀ (ra : Byte) (s t : State),
    (exec (.prn ra) s = .next t →
      (∀ r, t.reg r = s.reg r) ∧ (∀ a, t.mem.read a = s.mem.read a) ∧
      ((t.status = s.status ∧ t.diag = s.diag) ∨ ∃ f, t.status = .faulted f ∧ t.diag = s.diag ++ [f] ∧ t.output = s.output)) ∧
    (exec .hlt s = .next t →
      (∀ r, t.reg r = s.reg r) ∧ (∀ a, t.mem.read a = s.mem.read a) ∧ t.output = s.output ∧ t.diag = s.diag ∧ t.pc = s.pc)

/-- PUSH and CALL change no register but SP, no cell but the one at the address `pushAddress` gives in the state before (none when it gives
none, or when the form faulted), and not the output; the status and the diagnostic stream stay too unless the form faulted, and then every
register stays (decision D9, log entry 14). -/
def Obligations.PushCallFrame : Prop :=
  ∀ (ra : Byte) (s t : State), ∀ i ∈ [Instr.push ra, .call ra], exec i s = .next t →
    (∀ r : RegIdx, r ≠ 7 → t.reg r = s.reg r) ∧
    (∀ a, pushAddress s = .ok a → ∀ b, b ≠ a.toNat → t.mem.read b = s.mem.read b) ∧
    (∀ f, pushAddress s = .error f → ∀ b, t.mem.read b = s.mem.read b) ∧ t.output = s.output ∧
    ((t.status = s.status ∧ t.diag = s.diag) ∨
      ∃ f, t.status = .faulted f ∧ t.diag = s.diag ++ [f] ∧ t.x = s.x ∧ ∀ b, t.mem.read b = s.mem.read b)

/-- POP changes no register but the one named by `ra` and SP, RET none but SP; neither changes a cell of memory or the output; the status and
the diagnostic stream stay too unless the form faulted, and then every register stays (decision D9, log entry 14). -/
def Obligations.PopRetFrame : Prop :=
  ∀ (ra : Byte) (s t : State),
    (exec (.pop ra) s = .next t → ∀ r : RegIdx, r.val ≠ ra.toNat → r ≠ 7 → t.reg r = s.reg r) ∧
    (exec .ret s = .next t → ∀ r : RegIdx, r ≠ 7 → t.reg r = s.reg r) ∧
    ∀ i ∈ [Instr.pop ra, .ret], exec i s = .next t →
      (∀ a, t.mem.read a = s.mem.read a) ∧ t.output = s.output ∧
      ((t.status = s.status ∧ t.diag = s.diag) ∨ ∃ f, t.status = .faulted f ∧ t.diag = s.diag ++ [f] ∧ t.x = s.x)
end

