-- ==== Sys2Proof/Laws/Decode.lean ====
section
/-! SUPPORT. What the opcode lookup answers, for every opcode map, and the injectivity of a well-formed map. -/

namespace Sys2Proof

theorem Mnemonic.mem_all (m : Mnemonic) : m ∈ Mnemonic.all := by cases m <;> decide

/-- A well-formed opcode map is injective (00_scope.md R5). -/
theorem OpcodeMap.code_injective {opc : OpcodeMap} (h : opc.wf = true) {m n : Mnemonic} (hmn : opc.code m = opc.code n) :
    m = n :=
  List.inj_on_of_nodup_map (of_decide_eq_true h) m.mem_all n.mem_all hmn

/-- The lookup of the opcode of `m` under a well-formed map. -/
theorem lookupOpcode_code {opc : OpcodeMap} (h : opc.wf = true) (m : Mnemonic) : lookupOpcode opc (opc.code m) = some m := by
  unfold lookupOpcode
  cases hf : Mnemonic.all.find? fun n => opc.code n == opc.code m with
  | none => simpa using List.find?_eq_none.1 hf m m.mem_all
  | some n =>
    have hn := List.find?_some hf
    rw [OpcodeMap.code_injective h (beq_iff_eq.1 hn)]

/-- A mnemonic the lookup answers has the byte as its opcode. -/
theorem code_of_lookupOpcode {opc : OpcodeMap} {ir : Byte} {m : Mnemonic} (h : lookupOpcode opc ir = some m) :
    opc.code m = ir := by
  have hm := List.find?_some h
  exact beq_iff_eq.1 hm

/-- The lookup answers nothing exactly when the byte is no opcode. -/
theorem lookupOpcode_eq_none {opc : OpcodeMap} {ir : Byte} : lookupOpcode opc ir = none ↔ ∀ m, opc.code m ≠ ir := by
  simp [lookupOpcode, List.find?_eq_none, Mnemonic.mem_all]

@[simp] theorem assemble_mnemonic (m : Mnemonic) (opa opb : Byte) : (assemble m opa opb).mnemonic = m := by
  cases m <;> rfl

theorem defaultOpc_wf : defaultOpc.wf = true := by decide

end Sys2Proof
end

