-- ==== Sys2Proof/Laws/State.lean ====
section
/-! SUPPORT. One lemma per field per update of the state, so that no later proof unfolds a record update. -/

namespace Sys2Proof.Machine

variable (s : State) (r q : RegIdx) (v : Byte) (f : FaultRecord)

@[simp] theorem State.setReg_pc : (s.setReg r v).pc = s.pc := rfl
@[simp] theorem State.setReg_mem : (s.setReg r v).mem = s.mem := rfl
@[simp] theorem State.setReg_status : (s.setReg r v).status = s.status := rfl
@[simp] theorem State.setReg_output : (s.setReg r v).output = s.output := rfl
@[simp] theorem State.setReg_diag : (s.setReg r v).diag = s.diag := rfl
theorem State.setReg_x : (s.setReg r v).x = s.x.set r v := rfl

@[simp] theorem State.setSp_pc : (s.setSp v).pc = s.pc := rfl
@[simp] theorem State.setSp_mem : (s.setSp v).mem = s.mem := rfl
@[simp] theorem State.setSp_status : (s.setSp v).status = s.status := rfl
@[simp] theorem State.setSp_output : (s.setSp v).output = s.output := rfl
@[simp] theorem State.setSp_diag : (s.setSp v).diag = s.diag := rfl
theorem State.setSp_x : (s.setSp v).x = s.x.set Config.spIndex v := rfl

@[simp] theorem State.setPc_pc : (s.setPc v).pc = v := rfl
@[simp] theorem State.setPc_x : (s.setPc v).x = s.x := rfl
@[simp] theorem State.setPc_mem : (s.setPc v).mem = s.mem := rfl
@[simp] theorem State.setPc_status : (s.setPc v).status = s.status := rfl
@[simp] theorem State.setPc_output : (s.setPc v).output = s.output := rfl
@[simp] theorem State.setPc_diag : (s.setPc v).diag = s.diag := rfl
@[simp] theorem State.setPc_reg : (s.setPc v).reg r = s.reg r := rfl
@[simp] theorem State.setPc_sp : (s.setPc v).sp = s.sp := rfl

@[simp] theorem State.emit_output : (s.emit v).output = s.output ++ [v] := rfl
@[simp] theorem State.emit_pc : (s.emit v).pc = s.pc := rfl
@[simp] theorem State.emit_x : (s.emit v).x = s.x := rfl
@[simp] theorem State.emit_mem : (s.emit v).mem = s.mem := rfl
@[simp] theorem State.emit_status : (s.emit v).status = s.status := rfl
@[simp] theorem State.emit_diag : (s.emit v).diag = s.diag := rfl
@[simp] theorem State.emit_reg : (s.emit v).reg r = s.reg r := rfl
@[simp] theorem State.emit_sp : (s.emit v).sp = s.sp := rfl

@[simp] theorem enterFault_status : (enterFault f s).status = .faulted f := rfl
@[simp] theorem enterFault_diag : (enterFault f s).diag = s.diag ++ [f] := rfl
@[simp] theorem enterFault_pc : (enterFault f s).pc = s.pc := rfl
@[simp] theorem enterFault_x : (enterFault f s).x = s.x := rfl
@[simp] theorem enterFault_mem : (enterFault f s).mem = s.mem := rfl
@[simp] theorem enterFault_output : (enterFault f s).output = s.output := rfl
@[simp] theorem enterFault_reg : (enterFault f s).reg r = s.reg r := rfl
@[simp] theorem enterFault_sp : (enterFault f s).sp = s.sp := rfl

@[simp] theorem State.reg_setReg : (s.setReg r v).reg q = if q = r then v else s.reg q := by
  simp only [State.reg, State.setReg, Fin.getElem_fin, Vector.getElem_set]
  grind

@[simp] theorem State.reg_setSp : (s.setSp v).reg q = if q = Config.spIndex then v else s.reg q :=
  State.reg_setReg s Config.spIndex q v

@[simp] theorem State.sp_setReg : (s.setReg r v).sp = if Config.spIndex = r then v else s.sp :=
  State.reg_setReg s r Config.spIndex v

@[simp] theorem State.sp_setSp : (s.setSp v).sp = v := by simp [State.sp]

/-- SP is register 7 (10_state.md R12). -/
theorem State.sp_eq_reg : s.sp = s.reg Config.spIndex := rfl

/-- Two states with the same registers and the same other fields are the same state. -/
theorem State.ext_reg {s t : State} (hx : ∀ r, s.reg r = t.reg r) (hpc : s.pc = t.pc) (hmem : s.mem = t.mem)
    (hstatus : s.status = t.status) (hout : s.output = t.output) (hdiag : s.diag = t.diag) : s = t := by
  cases s; cases t
  simp only [State.mk.injEq] at *
  refine ⟨?_, hpc, hmem, hstatus, hout, hdiag⟩
  ext i hi
  have := hx ⟨i, hi⟩
  simp_all [State.reg]

end Sys2Proof.Machine
end

