-- ==== Sys2Proof/Laws/Ops.lean ====
section
/-! SUPPORT. One specification lemma per shared operation: everything it can answer. Later proofs cite these. -/

namespace Sys2Proof.Machine

/-- What `commit` answers: the writes, or the fault from the state before them. It never stops. -/
theorem commit_next {s t : State} {e : Except FaultRecord State} :
    commit s e = .next t ↔ e = .ok t ∨ ∃ f, e = .error f ∧ t = enterFault f s := by
  cases e with
  | ok u => simp [commit]
  | error f => simp [commit, eq_comm]

theorem commit_ok (s t : State) : commit s (.ok t) = .next t := rfl
theorem commit_error (s : State) (f : FaultRecord) : commit s (.error f) = .next (enterFault f s) := rfl

theorem commit_exists_next (s : State) (e : Except FaultRecord State) : ∃ t, commit s e = .next t := by
  cases e <;> simp [commit]

/-- What an execute part answers, one operation at a time: the operation's fault, or the rest after its value. -/
theorem commit_bind_next {α : Type} {s t : State} {e : Except FaultRecord α} {k : α → Except FaultRecord State} :
    commit s (e >>= k) = .next t ↔
      (∃ f, e = .error f ∧ t = enterFault f s) ∨ ∃ a, e = .ok a ∧ commit s (k a) = .next t := by
  cases e with
  | ok a => simp [bind, Except.bind]
  | error f => simp [bind, Except.bind, commit, eq_comm]

theorem commit_pure_next {s t u : State} : commit s (pure u) = .next t ↔ t = u := by
  simp [commit, pure, Except.pure, eq_comm]

theorem ok_bind {α β : Type} (a : α) (k : α → Except FaultRecord β) : (Except.ok a >>= k) = k a := rfl
theorem error_bind {α β : Type} (f : FaultRecord) (k : α → Except FaultRecord β) : (Except.error f >>= k) = .error f := rfl
theorem pure_ok {α : Type} (a : α) : (pure a : Except FaultRecord α) = .ok a := rfl

/-- The range check of an integer that is an address. -/
theorem rangeCheck_natCast {pc : Byte} {n : Nat} (h : n ≤ 255) : rangeCheck pc (n : Int) = .ok (BitVec.ofNat 8 n) := by
  unfold rangeCheck rangeCheckWith
  rw [if_pos (Or.inl (by omega)), BitVec.ofInt_natCast]

/-- The range check of an integer that is no address. -/
theorem rangeCheck_error {pc : Byte} {a : Int} (h : a < 0 ∨ 255 < a) :
    rangeCheck pc a = .error (.outOfBoundsAccess .mem a pc) := by
  unfold rangeCheck rangeCheckWith Config.addrWrap
  rw [if_neg (by simp; omega)]

/-- Everything the range check can answer. -/
theorem rangeCheck_cases (pc : Byte) (a : Int) :
    (∃ n : Nat, a = n ∧ n ≤ 255 ∧ rangeCheck pc a = .ok (BitVec.ofNat 8 n)) ∨
      ((a < 0 ∨ 255 < a) ∧ rangeCheck pc a = .error (.outOfBoundsAccess .mem a pc)) := by
  by_cases h : 0 ≤ a ∧ a ≤ 255
  · obtain ⟨n, rfl⟩ := Int.eq_ofNat_of_zero_le h.1
    exact .inl ⟨n, rfl, by omega, rangeCheck_natCast (by omega)⟩
  · exact .inr ⟨by omega, rangeCheck_error (by omega)⟩

/-- With ADDR_WRAP the range check never faults, and reduces modulo 256 (notes of 92_eei_decisions.md). -/
theorem rangeCheckWith_wrap (pc : Byte) (a : Int) : rangeCheckWith true pc a = .ok (BitVec.ofInt 8 a) := by
  simp [rangeCheckWith]

theorem memRead_natCast {n : Nat} (s : State) (h : n ≤ 255) : memRead (n : Int) s = .ok (s.mem.read n) := by
  have hn : (BitVec.ofNat 8 n).toNat = n := by simp; omega
  simp [memRead, rangeCheck_natCast h, hn, bind, Except.bind, pure, Except.pure]

theorem memRead_error {a : Int} (s : State) (h : a < 0 ∨ 255 < a) :
    memRead a s = .error (.outOfBoundsAccess .mem a s.pc) := by
  simp [memRead, rangeCheck_error h, bind, Except.bind]

theorem memWrite_natCast {n : Nat} (v : Byte) (s : State) (h : n ≤ 255) :
    memWrite (n : Int) v s = .ok { s with mem := s.mem.write n v } := by
  have hn : (BitVec.ofNat 8 n).toNat = n := by simp; omega
  simp [memWrite, rangeCheck_natCast h, hn, bind, Except.bind, pure, Except.pure]

theorem memWrite_error {a : Int} (v : Byte) (s : State) (h : a < 0 ∨ 255 < a) :
    memWrite a v s = .error (.outOfBoundsAccess .mem a s.pc) := by
  simp [memWrite, rangeCheck_error h, bind, Except.bind]

/-- The PC advance inside the address space. -/
theorem pcPlus_ok {w : Nat} {pc : Byte} (h : pc.toNat + w ≤ 255) : pcPlus w pc = .ok (BitVec.ofNat 8 (pc.toNat + w)) := by
  have := rangeCheck_natCast (pc := pc) h
  simpa [pcPlus] using this

/-- The PC advance out of the address space. -/
theorem pcPlus_error {w : Nat} {pc : Byte} (h : 255 < pc.toNat + w) :
    pcPlus w pc = .error (.outOfBoundsAccess .mem (pc.toNat + w) pc) :=
  rangeCheck_error (.inr (by omega))

/-- Everything the PC advance can answer. -/
theorem pcPlus_cases (w : Nat) (pc : Byte) :
    (pc.toNat + w ≤ 255 ∧ pcPlus w pc = .ok (BitVec.ofNat 8 (pc.toNat + w))) ∨
      (255 < pc.toNat + w ∧ pcPlus w pc = .error (.outOfBoundsAccess .mem (pc.toNat + w) pc)) := by
  by_cases h : pc.toNat + w ≤ 255
  · exact .inl ⟨h, pcPlus_ok h⟩
  · exact .inr ⟨by omega, pcPlus_error (by omega)⟩

/-- The address of a push that does not fault. -/
theorem pushAddress_ok {s : State} (h : s.sp.toNat ≠ 0) : pushAddress s = .ok (BitVec.ofNat 8 (s.sp.toNat - 1)) := by
  have hlt := s.sp.isLt
  have : ((s.sp.toNat : Int) - 1) = ((s.sp.toNat - 1 : Nat) : Int) := by omega
  rw [pushAddress, this, rangeCheck_natCast (by omega)]

/-- A push with SP 0 has address -1 (43_stack.md R98). -/
theorem pushAddress_error {s : State} (h : s.sp.toNat = 0) : pushAddress s = .error (.outOfBoundsAccess .mem (-1) s.pc) := by
  rw [pushAddress, rangeCheck_error (by omega), h]
  rfl

/-- A push that does not fault: SP decremented, the value (read after that) stored at the new SP. -/
theorem pushByte_ok {value : State → Byte} {s : State} {a : Byte} (h : pushAddress s = .ok a) :
    pushByte value s = .ok { s.setSp a with mem := s.mem.write a.toNat (value (s.setSp a)) } := by
  have ha := a.isLt
  simp only [pushByte, h, bind, Except.bind]
  exact memWrite_natCast _ _ (by omega)

theorem pushByte_error {value : State → Byte} {s : State} {f : FaultRecord} (h : pushAddress s = .error f) :
    pushByte value s = .error f := by
  simp [pushByte, h, bind, Except.bind]

/-- Everything a push can answer. -/
theorem pushByte_cases (value : State → Byte) (s : State) :
    (s.sp.toNat ≠ 0 ∧ pushByte value s = .ok { s.setSp (BitVec.ofNat 8 (s.sp.toNat - 1)) with
        mem := s.mem.write (s.sp.toNat - 1) (value (s.setSp (BitVec.ofNat 8 (s.sp.toNat - 1)))) }) ∨
      (s.sp.toNat = 0 ∧ pushByte value s = .error (.outOfBoundsAccess .mem (-1) s.pc)) := by
  by_cases h : s.sp.toNat = 0
  · exact .inr ⟨h, pushByte_error (pushAddress_error h)⟩
  · have hlt := s.sp.isLt
    have hn : (BitVec.ofNat 8 (s.sp.toNat - 1)).toNat = s.sp.toNat - 1 := by simp; omega
    exact .inl ⟨h, by rw [pushByte_ok (pushAddress_ok h), hn]⟩

/-- SP is a byte, so the read of a pop is always in range (43_stack.md R97). -/
theorem topByte_ok (s : State) : topByte s = .ok (s.mem.read s.sp.toNat) :=
  memRead_natCast s (by have := s.sp.isLt; omega)

theorem incSp_ok {s : State} (h : s.sp.toNat ≠ 255) : incSp s = .ok (s.setSp (BitVec.ofNat 8 (s.sp.toNat + 1))) := by
  have hlt := s.sp.isLt
  have := rangeCheck_natCast (pc := s.pc) (n := s.sp.toNat + 1) (by omega)
  simp only [Nat.cast_add, Nat.cast_one] at this
  simp [incSp, this, bind, Except.bind, pure, Except.pure]

/-- An increment of SP to 256 faults (43_stack.md R98). -/
theorem incSp_error {s : State} (h : s.sp.toNat = 255) : incSp s = .error (.outOfBoundsAccess .mem 256 s.pc) := by
  have ha := rangeCheck_error (pc := s.pc) (a := (256 : Int)) (by omega)
  have hs : (s.sp.toNat : Int) + 1 = 256 := by omega
  simp [incSp, hs, ha, bind, Except.bind]

/-- Everything an increment of SP can answer. -/
theorem incSp_cases (s : State) :
    (s.sp.toNat ≠ 255 ∧ incSp s = .ok (s.setSp (BitVec.ofNat 8 (s.sp.toNat + 1)))) ∨
      (s.sp.toNat = 255 ∧ incSp s = .error (.outOfBoundsAccess .mem 256 s.pc)) := by
  by_cases h : s.sp.toNat = 255
  · exact .inr ⟨h, incSp_error h⟩
  · exact .inl ⟨h, incSp_ok h⟩

/-- A legal register operand. -/
theorem regOperand_ok {b : Byte} (s : State) (h : b.toNat < 8) : regOperand b s = .ok ⟨b.toNat, h⟩ := by
  simp [regOperand, h]

/-- An illegal register operand (40_execution_cycle.md R76). -/
theorem regOperand_error {b : Byte} (s : State) (h : ¬ b.toNat < 8) :
    regOperand b s = .error (.outOfBoundsAccess .reg b.toNat s.pc) := by
  simp [regOperand, h]

/-- Everything the check of a register operand can answer. -/
theorem regOperand_cases (b : Byte) (s : State) :
    (∃ h : b.toNat < 8, regOperand b s = .ok ⟨b.toNat, h⟩) ∨
      (8 ≤ b.toNat ∧ regOperand b s = .error (.outOfBoundsAccess .reg b.toNat s.pc)) := by
  by_cases h : b.toNat < 8
  · exact .inl ⟨h, regOperand_ok s h⟩
  · exact .inr ⟨by omega, regOperand_error s h⟩

/-- A fetch inside the address space (40_execution_cycle.md R71). -/
theorem fetch_ok {s : State} (h : s.pc.toNat ≤ 253) :
    fetch s = .ok ⟨s.mem.read s.pc.toNat, s.mem.read (s.pc.toNat + 1), s.mem.read (s.pc.toNat + 2)⟩ := by
  have h0 := memRead_natCast s (n := s.pc.toNat) (by omega)
  have h1 := memRead_natCast s (n := s.pc.toNat + 1) (by omega)
  have h2 := memRead_natCast s (n := s.pc.toNat + 2) (by omega)
  simp only [Nat.cast_add, Nat.cast_one, Nat.cast_ofNat] at h1 h2
  simp [fetch, h0, h1, h2, bind, Except.bind, pure, Except.pure]

/-- A fetch at 254 or 255 faults at address 256 (40_execution_cycle.md R71). -/
theorem fetch_error {s : State} (h : 253 < s.pc.toNat) : fetch s = .error (.outOfBoundsAccess .mem 256 s.pc) := by
  have hlt := s.pc.isLt
  have h0 := memRead_natCast s (n := s.pc.toNat) (by omega)
  have h256 := memRead_error s (a := (256 : Int)) (by omega)
  rcases (show s.pc.toNat = 254 ∨ s.pc.toNat = 255 by omega) with hp | hp
  · have h1 := memRead_natCast s (n := s.pc.toNat + 1) (by omega)
    have e : (s.pc.toNat : Int) + 2 = 256 := by omega
    simp only [Nat.cast_add, Nat.cast_one] at h1
    simp [fetch, h0, h1, e, h256, bind, Except.bind]
  · have e : (s.pc.toNat : Int) + 1 = 256 := by omega
    simp [fetch, h0, e, h256, bind, Except.bind]

end Sys2Proof.Machine
end

