-- ==== Sys2Proof/Laws/PerInstr.lean ====
section
/-! SUPPORT. The statements made of every instruction as it is written, one lemma per constructor. -/

/-- The encoding of an instruction has the width of its mnemonic, 1 to 3 bytes (30_encoding.md R50, R52). -/
def Sys2Proof.Laws.EncodedWidth.Statement (i : Sys2Proof.Instr) : Prop :=
  ∀ opc, (Sys2Proof.encodeWith opc i).length = i.mnemonic.width ∧ 1 ≤ i.mnemonic.width ∧ i.mnemonic.width ≤ 3

namespace Sys2Proof.Laws.EncodedWidth

theorem width_bounds (m : Mnemonic) : 1 ≤ m.width ∧ m.width ≤ 3 := by cases m <;> decide

theorem hlt : Statement .hlt := fun _ => ⟨rfl, width_bounds _⟩
theorem ldi (ra imm : Byte) : Statement (.ldi ra imm) := fun _ => ⟨rfl, width_bounds _⟩
theorem prn (ra : Byte) : Statement (.prn ra) := fun _ => ⟨rfl, width_bounds _⟩
theorem add (ra rb : Byte) : Statement (.add ra rb) := fun _ => ⟨rfl, width_bounds _⟩
theorem mul (ra rb : Byte) : Statement (.mul ra rb) := fun _ => ⟨rfl, width_bounds _⟩
theorem push (ra : Byte) : Statement (.push ra) := fun _ => ⟨rfl, width_bounds _⟩
theorem pop (ra : Byte) : Statement (.pop ra) := fun _ => ⟨rfl, width_bounds _⟩
theorem call (ra : Byte) : Statement (.call ra) := fun _ => ⟨rfl, width_bounds _⟩
theorem ret : Statement .ret := fun _ => ⟨rfl, width_bounds _⟩

end Sys2Proof.Laws.EncodedWidth
end

