-- ==== Sys2Proof/Laws/Step.lean ====
section
/-! SUPPORT. What one step can answer, said once; invariants are derived from this. -/

namespace Sys2Proof.Machine

/-- Every instruction answers a next state: executed, or its fault taken. -/
theorem exec_exists_next (i : Instr) (s : State) : ∃ t, exec i s = .next t := by
  cases i <;> first
    | exact commit_exists_next _ _
    | exact ⟨_, rfl⟩

/-! Inversion of each meaning: which operation raised the fault, or what the whole execute part wrote. -/

theorem execLdi_next {ra imm : Byte} {s t : State} (h : execLdi ra imm s = .next t) :
    (∃ f, regOperand ra s = .error f ∧ t = enterFault f s) ∨
      ∃ r, regOperand ra s = .ok r ∧
        ((∃ f, pcPlus 3 s.pc = .error f ∧ t = enterFault f s) ∨
          ∃ npc, pcPlus 3 s.pc = .ok npc ∧ t = (s.setReg r imm).setPc npc) := by
  simpa only [execLdi, commit_bind_next, commit_pure_next] using h

theorem execPrn_next {ra : Byte} {s t : State} (h : execPrn ra s = .next t) :
    (∃ f, regOperand ra s = .error f ∧ t = enterFault f s) ∨
      ∃ r, regOperand ra s = .ok r ∧
        ((∃ f, pcPlus 2 s.pc = .error f ∧ t = enterFault f s) ∨
          ∃ npc, pcPlus 2 s.pc = .ok npc ∧ t = (s.emit (s.reg r)).setPc npc) := by
  simpa only [execPrn, commit_bind_next, commit_pure_next] using h

theorem aluInstruction_next {op : AluOp} {ra rb : Byte} {s t : State} (h : aluInstruction op ra rb s = .next t) :
    (∃ f, regOperand ra s = .error f ∧ t = enterFault f s) ∨
      ∃ a, regOperand ra s = .ok a ∧
        ((∃ f, regOperand rb s = .error f ∧ t = enterFault f s) ∨
          ∃ b, regOperand rb s = .ok b ∧
            ((∃ f, pcPlus 3 s.pc = .error f ∧ t = enterFault f s) ∨
              ∃ npc, pcPlus 3 s.pc = .ok npc ∧ t = (alu op a b s).setPc npc)) := by
  simpa only [aluInstruction, commit_bind_next, commit_pure_next] using h

theorem execPush_next {ra : Byte} {s t : State} (h : execPush ra s = .next t) :
    (∃ f, regOperand ra s = .error f ∧ t = enterFault f s) ∨
      ∃ r, regOperand ra s = .ok r ∧
        ((∃ f, pushByte (fun u => u.reg r) s = .error f ∧ t = enterFault f s) ∨
          ∃ s1, pushByte (fun u => u.reg r) s = .ok s1 ∧
            ((∃ f, pcPlus 2 s.pc = .error f ∧ t = enterFault f s) ∨
              ∃ npc, pcPlus 2 s.pc = .ok npc ∧ t = s1.setPc npc)) := by
  simpa only [execPush, commit_bind_next, commit_pure_next] using h

theorem execPop_next {ra : Byte} {s t : State} (h : execPop ra s = .next t) :
    (∃ f, regOperand ra s = .error f ∧ t = enterFault f s) ∨
      ∃ r, regOperand ra s = .ok r ∧
        ((∃ f, incSp (s.setReg r (s.mem.read s.sp.toNat)) = .error f ∧ t = enterFault f s) ∨
          ∃ s1, incSp (s.setReg r (s.mem.read s.sp.toNat)) = .ok s1 ∧
            ((∃ f, pcPlus 2 s.pc = .error f ∧ t = enterFault f s) ∨
              ∃ npc, pcPlus 2 s.pc = .ok npc ∧ t = s1.setPc npc)) := by
  simpa only [execPop, topByte_ok, ok_bind, commit_bind_next, commit_pure_next] using h

theorem execCall_next {ra : Byte} {s t : State} (h : execCall ra s = .next t) :
    (∃ f, regOperand ra s = .error f ∧ t = enterFault f s) ∨
      ∃ r, regOperand ra s = .ok r ∧
        ((∃ f, pcPlus 2 s.pc = .error f ∧ t = enterFault f s) ∨
          ∃ back, pcPlus 2 s.pc = .ok back ∧
            ((∃ f, pushByte (fun _ => back) s = .error f ∧ t = enterFault f s) ∨
              ∃ s1, pushByte (fun _ => back) s = .ok s1 ∧ t = s1.setPc (s1.reg r))) := by
  simpa only [execCall, commit_bind_next, commit_pure_next] using h

theorem execRet_next {s t : State} (h : execRet s = .next t) :
    (∃ f, incSp s = .error f ∧ t = enterFault f s) ∨
      ∃ s1, incSp s = .ok s1 ∧ t = s1.setPc (s.mem.read s.sp.toNat) := by
  simpa only [execRet, topByte_ok, ok_bind, commit_bind_next, commit_pure_next] using h

/-- Every instruction that answers a next state took a fault, halted, or left the status and the diagnostic stream alone. -/
theorem exec_next_status {i : Instr} {s t : State} (h : exec i s = .next t) :
    (∃ f, t = enterFault f s) ∨ (i = .hlt ∧ t = { s with status := .halted }) ∨
      (i ≠ .hlt ∧ t.status = s.status ∧ t.diag = s.diag) := by
  cases i with
  | hlt => exact .inr (.inl ⟨rfl, (Host.Outcome.next.inj h).symm⟩)
  | ldi ra imm =>
    obtain ⟨f, -, e⟩ | ⟨r, -, ⟨f, -, e⟩ | ⟨npc, -, e⟩⟩ := execLdi_next h
    · exact .inl ⟨f, e⟩
    · exact .inl ⟨f, e⟩
    · subst e; exact .inr (.inr ⟨nofun, rfl, rfl⟩)
  | prn ra =>
    obtain ⟨f, -, e⟩ | ⟨r, -, ⟨f, -, e⟩ | ⟨npc, -, e⟩⟩ := execPrn_next h
    · exact .inl ⟨f, e⟩
    · exact .inl ⟨f, e⟩
    · subst e; exact .inr (.inr ⟨nofun, rfl, rfl⟩)
  | add ra rb =>
    obtain ⟨f, -, e⟩ | ⟨a, -, ⟨f, -, e⟩ | ⟨b, -, ⟨f, -, e⟩ | ⟨npc, -, e⟩⟩⟩ := aluInstruction_next h
    · exact .inl ⟨f, e⟩
    · exact .inl ⟨f, e⟩
    · exact .inl ⟨f, e⟩
    · subst e; exact .inr (.inr ⟨nofun, rfl, rfl⟩)
  | mul ra rb =>
    obtain ⟨f, -, e⟩ | ⟨a, -, ⟨f, -, e⟩ | ⟨b, -, ⟨f, -, e⟩ | ⟨npc, -, e⟩⟩⟩ := aluInstruction_next h
    · exact .inl ⟨f, e⟩
    · exact .inl ⟨f, e⟩
    · exact .inl ⟨f, e⟩
    · subst e; exact .inr (.inr ⟨nofun, rfl, rfl⟩)
  | push ra =>
    obtain ⟨f, -, e⟩ | ⟨r, -, ⟨f, -, e⟩ | ⟨s1, h1, ⟨f, -, e⟩ | ⟨npc, -, e⟩⟩⟩ := execPush_next h
    · exact .inl ⟨f, e⟩
    · exact .inl ⟨f, e⟩
    · exact .inl ⟨f, e⟩
    · obtain ⟨-, h2⟩ | ⟨-, h2⟩ := pushByte_cases (fun u => u.reg r) s
      · rw [h2] at h1; cases h1; subst e; exact .inr (.inr ⟨nofun, rfl, rfl⟩)
      · rw [h2] at h1; cases h1
  | pop ra =>
    obtain ⟨f, -, e⟩ | ⟨r, -, ⟨f, -, e⟩ | ⟨s1, h1, ⟨f, -, e⟩ | ⟨npc, -, e⟩⟩⟩ := execPop_next h
    · exact .inl ⟨f, e⟩
    · exact .inl ⟨f, e⟩
    · exact .inl ⟨f, e⟩
    · obtain ⟨-, h2⟩ | ⟨-, h2⟩ := incSp_cases (s.setReg r (s.mem.read s.sp.toNat))
      · rw [h2] at h1; cases h1; subst e; exact .inr (.inr ⟨nofun, rfl, rfl⟩)
      · rw [h2] at h1; cases h1
  | call ra =>
    obtain ⟨f, -, e⟩ | ⟨r, -, ⟨f, -, e⟩ | ⟨back, -, ⟨f, -, e⟩ | ⟨s1, h1, e⟩⟩⟩ := execCall_next h
    · exact .inl ⟨f, e⟩
    · exact .inl ⟨f, e⟩
    · exact .inl ⟨f, e⟩
    · obtain ⟨-, h2⟩ | ⟨-, h2⟩ := pushByte_cases (fun _ => back) s
      · rw [h2] at h1; cases h1; subst e; exact .inr (.inr ⟨nofun, rfl, rfl⟩)
      · rw [h2] at h1; cases h1
  | ret =>
    obtain ⟨f, -, e⟩ | ⟨s1, h1, e⟩ := execRet_next h
    · exact .inl ⟨f, e⟩
    · obtain ⟨-, h2⟩ | ⟨-, h2⟩ := incSp_cases s
      · rw [h2] at h1; cases h1; subst e; exact .inr (.inr ⟨nofun, rfl, rfl⟩)
      · rw [h2] at h1; cases h1

/-- Everything a step that answers a next state did. -/
theorem stepWith_next {opc : OpcodeMap} {s t : State} (h : stepWith opc s = .next t) :
    s.status = .running ∧
      ((∃ f, fetch s = .error f ∧ t = enterFault f s) ∨
        (∃ b, fetch s = .ok b ∧ lookupOpcode opc b.ir = none ∧ t = enterFault (.unknownOpcode b.ir s.pc) s) ∨
        (∃ b m, fetch s = .ok b ∧ lookupOpcode opc b.ir = some m ∧ exec (assemble m b.opa b.opb) s = .next t)) := by
  unfold stepWith at h
  split at h
  · rename_i hs
    refine ⟨hs, ?_⟩
    split at h
    · rename_i f hf
      exact .inl ⟨f, hf, by simpa [eq_comm] using h⟩
    · rename_i b hb
      unfold decodeWith at h
      cases hl : lookupOpcode opc b.ir with
      | none => exact .inr (.inl ⟨b, hb, hl, by simpa [hl, eq_comm] using h⟩)
      | some m => exact .inr (.inr ⟨b, m, hb, hl, by simpa [hl] using h⟩)
  · cases h
  · cases h

/-- A running machine's step: the three parts, as equations. -/
theorem stepWith_fetch_error {opc : OpcodeMap} {s : State} {f : FaultRecord} (hs : s.status = .running)
    (hf : fetch s = .error f) : stepWith opc s = .next (enterFault f s) := by
  simp [stepWith, hs, hf]

theorem stepWith_unknown {opc : OpcodeMap} {s : State} {b : Fetched} (hs : s.status = .running) (hf : fetch s = .ok b)
    (hl : lookupOpcode opc b.ir = none) : stepWith opc s = .next (enterFault (.unknownOpcode b.ir s.pc) s) := by
  simp [stepWith, hs, hf, decodeWith, hl]

theorem stepWith_exec {opc : OpcodeMap} {s : State} {b : Fetched} {m : Mnemonic} (hs : s.status = .running)
    (hf : fetch s = .ok b) (hl : lookupOpcode opc b.ir = some m) :
    stepWith opc s = exec (assemble m b.opa b.opb) s := by
  simp [stepWith, hs, hf, decodeWith, hl]

/-! A run, one step at a time (40_execution_cycle.md R70). -/

theorem stepsTo_zero {opc : OpcodeMap} {s t : State} : StepsTo opc 0 s t ↔ s = t := Iff.rfl

theorem stepsTo_succ {opc : OpcodeMap} {k : Nat} {s t : State} :
    StepsTo opc (k + 1) s t ↔ s.status = .running ∧ ∃ u, stepWith opc s = .next u ∧ StepsTo opc k u t := Iff.rfl

/-- A run that has ended is its own result, under any fuel. -/
theorem runWith_ended {opc : OpcodeMap} {s : State} (hs : s.status ≠ .running) (fuel : Nat) : runWith opc fuel s = some s := by
  cases fuel <;> simp [runWith, hs]

/-- A running machine with no fuel left has no result. -/
theorem runWith_zero {opc : OpcodeMap} {s : State} (hs : s.status = .running) : runWith opc 0 s = none := by
  simp [runWith, hs]

/-- A running machine's run goes on from its next state. -/
theorem runWith_succ {opc : OpcodeMap} {s t : State} (hs : s.status = .running) (h : stepWith opc s = .next t) (fuel : Nat) :
    runWith opc (fuel + 1) s = runWith opc fuel t := by
  simp [runWith, hs, h]

end Sys2Proof.Machine
end

