-- ==== Sys2Proof/Tests/Slice0.lean ====
section
/-! SUPPORT. The model's own tests. Expected values come from the spec: the encodings of 30_encoding.md R51 and R54, the one-step vectors of
95_test_vectors.md (named in each test), and hand calculation from the rules. Then one witness for the hypotheses of each statement. -/

namespace Sys2Proof.Tests

open Sys2Proof.Machine

/-- The reset state with a PC, some registers and some runs of bytes placed. -/
def demo (pc : Byte) (regs : List (RegIdx × Byte)) (cells : List (Nat × List Byte)) : State :=
  let s := regs.foldl (fun t r => t.setReg r.1 r.2) State.reset
  { s with pc := pc, mem := cells.foldl (fun m c => m.writeBytes c.1 c.2) s.mem }

/-- The next state of an outcome. -/
def after : Host.Outcome State Fault Refusal → Option State
  | .next t => some t
  | .fault _ => none
  | .refused _ => none

/-! ## Well-formedness: each check refuses an ill-formed term -/

theorem test_wf_accepts_register_7 : (Instr.ldi 7 255).wf = true := by decide
theorem test_wf_refuses_ldi_register_8 : (Instr.ldi 8 0).wf = false := by decide
theorem test_wf_refuses_prn_register_255 : (Instr.prn 255).wf = false := by decide
theorem test_wf_refuses_add_first_operand : (Instr.add 8 0).wf = false := by decide
theorem test_wf_refuses_add_second_operand : (Instr.add 0 8).wf = false := by decide
theorem test_wf_refuses_mul_first_operand : (Instr.mul 8 0).wf = false := by decide
theorem test_wf_refuses_mul_second_operand : (Instr.mul 0 8).wf = false := by decide
theorem test_wf_refuses_push_register_8 : (Instr.push 8).wf = false := by decide
theorem test_wf_refuses_pop_register_8 : (Instr.pop 8).wf = false := by decide
theorem test_wf_refuses_call_register_8 : (Instr.call 8).wf = false := by decide
theorem test_wf_refuses_repeated_opcode : ({ defaultOpc with ret := 0x01 } : OpcodeMap).wf = false := by decide
theorem test_wf_refuses_unsorted_memory : ¬ Memory.wf [(2, 1), (1, 1)] := by decide
theorem test_wf_refuses_listed_zero : ¬ Memory.wf [(2, 0)] := by decide
theorem test_wf_refuses_address_256 : ¬ Memory.wf [(256, 1)] := by decide

/-! ## Decoding: one word per constructor, written out from R51 and R54 -/

theorem test_decode_hlt : decodeTableWord 8 0b00000001 = some .hlt := by decide
theorem test_decode_ldi : decodeTableWord 24 0b11001000_00000011_10000010 = some (.ldi 3 200) := by decide
theorem test_decode_prn : decodeTableWord 16 0b00000111_01000111 = some (.prn 7) := by decide
theorem test_decode_add : decodeTableWord 24 0b00000010_00000001_10100000 = some (.add 1 2) := by decide
theorem test_decode_mul : decodeTableWord 24 0b00000010_00000001_10100010 = some (.mul 1 2) := by decide
theorem test_decode_push : decodeTableWord 16 0b00000100_01000101 = some (.push 4) := by decide
theorem test_decode_pop : decodeTableWord 16 0b00000101_01000110 = some (.pop 5) := by decide
theorem test_decode_call : decodeTableWord 16 0b00000110_01010000 = some (.call 6) := by decide
theorem test_decode_ret : decodeTableWord 8 0b00010001 = some .ret := by decide
theorem test_decode_short_word_reads_zero_operands : decodeTableWord 8 0xFFFF82 = some (.ldi 0 0) := by decide
theorem test_decode_refuses_zero : decodeTableWord 24 0 = none := by decide
/-- K4: an opcode of the wider LS-8 set. -/
theorem test_decode_refuses_ls8_jmp : decode 0x54 0 0 = .error (.unknownOpcode 0x54) := by decide
theorem test_encode_add : encode (.add 1 2) = [0xA0, 1, 2] := by decide

/-- R55: the default numbers have the LS-8 shape AABCDDDD (operand count, ALU, sets PC). -/
theorem test_default_opcode_shape : ∀ m ∈ Mnemonic.all, (defaultOpc.code m).toNat / 64 = m.operandCount ∧
    (defaultOpc.code m).getLsbD 5 = decide (m = .add ∨ m = .mul) ∧
    (defaultOpc.code m).getLsbD 4 = decide (m = .call ∨ m = .ret) := by decide

/-! ## One step each: the vectors of 95_test_vectors.md -/

/-- L3. -/
theorem test_ldi_sets_sp : (after (step (demo 0 [] [(0, [0x82, 7, 0x20])]))).map (fun t => (t.sp, t.pc)) = some (32, 3) := by decide
/-- L6. -/
theorem test_ldi_at_253_faults : (after (step (demo 253 [] [(253, [0x82, 0, 5])]))).map (fun t => (t.reg 0, t.pc, t.status)) =
    some (0, 253, .faulted (.outOfBoundsAccess .mem 256 253)) := by decide
/-- N2. -/
theorem test_prn_emits_sp : (after (step (demo 0 [] [(0, [0x47, 7])]))).map (fun t => (t.output, t.pc)) = some ([244], 2) := by decide
/-- N4. -/
theorem test_prn_at_253 : (after (step (demo 253 [(0, 6)] [(253, [0x47, 0])]))).map (fun t => (t.output, t.pc)) = some ([6], 255) := by decide
/-- A10. -/
theorem test_add_wraps_sp : (after (step (demo 0 [(7, 255), (1, 1)] [(0, [0xA0, 7, 1])]))).map (fun t => (t.sp, t.status)) =
    some (0, .running) := by decide
/-- A14. -/
theorem test_add_destination_is_first : (after (step (demo 0 [(0, 3), (1, 250)] [(0, [0xA0, 1, 0])]))).map (fun t => (t.reg 0, t.reg 1)) =
    some (3, 253) := by decide
/-- M11. -/
theorem test_mul_squares_mod_256 : (after (step (demo 0 [(2, 17)] [(0, [0xA2, 2, 2])]))).map (fun t => (t.reg 2, t.pc)) = some (33, 3) := by decide
/-- Q5. -/
theorem test_mul_register_check_before_pc : (after (step (demo 253 [] [(253, [0xA2, 0, 9])]))).map State.status =
    some (.faulted (.outOfBoundsAccess .reg 9 253)) := by decide
/-- PU2. -/
theorem test_push_x7_stores_decremented : (after (step (demo 0 [] [(0, [0x45, 7])]))).map (fun t => (t.sp, t.mem.read 243)) =
    some (243, 243) := by decide
/-- PU3. -/
theorem test_push_with_sp_0_faults : (after (step (demo 0 [(0, 5), (7, 0)] [(0, [0x45, 0])]))).map (fun t => (t.sp, t.status)) =
    some (0, .faulted (.outOfBoundsAccess .mem (-1) 0)) := by decide
/-- PO5. -/
theorem test_pop_x7_increments_popped : (after (step (demo 0 [(7, 255)] [(0, [0x46, 7]), (255, [5])]))).map (fun t => (t.sp, t.status)) =
    some (6, .running) := by decide
/-- PO3. -/
theorem test_pop_past_255_faults : (after (step (demo 0 [(7, 255), (1, 9)] [(0, [0x46, 1]), (255, [5])]))).map
    (fun t => (t.reg 1, t.sp, t.status)) = some (9, 255, .faulted (.outOfBoundsAccess .mem 256 0)) := by decide
/-- C2. -/
theorem test_call_x7_jumps_to_decremented : (after (step (demo 0 [] [(0, [0x50, 7])]))).map (fun t => (t.sp, t.mem.read 243, t.pc)) =
    some (243, 2, 243) := by decide
/-- C5. -/
theorem test_call_at_253 : (after (step (demo 253 [(0, 0x10)] [(253, [0x50, 0])]))).map (fun t => (t.mem.read 243, t.pc)) =
    some (255, 0x10) := by decide
/-- RT7. -/
theorem test_ret_pops_its_own_byte : (after (step (demo 0 [(7, 0)] [(0, [0x11])]))).map (fun t => (t.sp, t.pc)) = some (1, 17) := by decide
/-- RT2. -/
theorem test_ret_past_255_faults : (after (step (demo 0 [(7, 255)] [(0, [0x11]), (255, [0x10])]))).map (fun t => (t.pc, t.status)) =
    some (0, .faulted (.outOfBoundsAccess .mem 256 0)) := by decide
/-- H5. -/
theorem test_hlt_ignores_operand_bytes : (after (step (demo 0 [] [(0, [1, 0xFF, 0xFF])]))).map (fun t => (t.pc, t.status)) =
    some (0, .halted) := by decide
/-- H4. -/
theorem test_hlt_at_255_faults : (after (step (demo 255 [] [(255, [1])]))).map State.status =
    some (.faulted (.outOfBoundsAccess .mem 256 255)) := by decide
/-- K5. -/
theorem test_unknown_opcode : (after (step (demo 7 [] [(7, [0x83, 9, 9])]))).map (fun t => (t.pc, t.diag)) =
    some (7, [.unknownOpcode 0x83 7]) := by decide
/-- K3. -/
theorem test_fetch_fault_before_unknown_opcode : (after (step (demo 254 [] [(254, [0xFF])]))).map State.status =
    some (.faulted (.outOfBoundsAccess .mem 256 254)) := by decide
/-- LD6. -/
theorem test_load_too_large : (load [1, 1] 255 State.reset).1 = .programTooLarge := by decide
/-- LD8. -/
theorem test_load_overwrites : (load [0xCC] 1 (load [0xAA, 0xBB] 0 State.reset).2).2.mem = [(0, 0xAA), (1, 0xCC)] := by decide
/-- R44: the origin is 0 by default. -/
theorem test_load_origin_defaults_to_zero : (load [0xAA, 0xBB] (s := State.reset)).2.mem = [(0, 0xAA), (1, 0xBB)] := by decide
/-- Writing the value an unlisted cell has removes the entry. -/
theorem test_write_zero_removes : Memory.write [(3, 1), (5, 2)] 3 0 = [(5, 2)] := by decide
/-- The notes of 92_eei_decisions.md: with ADDR_WRAP the address -1 is 255. -/
theorem test_addr_wrap : rangeCheckWith true 0 (-1) = .ok 255 ∧ rangeCheckWith false 0 (-1) = .error (.outOfBoundsAccess .mem (-1) 0) := by
  decide
/-- The word is stored where the step fetches, as far as the address space goes. -/
theorem test_withFetchWord_at_254 : ((demo 254 [] []).withFetchWord 24 0x030201).mem = [(254, 1), (255, 2)] := by decide

/-! ## Witnesses: a state and operands that meet all the hypotheses of each statement that has some -/

theorem witness_DecodeOfEncodeIsTheInstruction : defaultOpc.wf = true := by decide
theorem witness_another_opcode_map : ({ defaultOpc with hlt := 0, ret := 255 } : OpcodeMap).wf = true := by decide
theorem witness_DecodedBytesAreTheEncoding : decodeWith defaultOpc 0x46 7 0xFF = .ok (.pop 7) := by decide
theorem witness_OpcodeMatchedAsWholeByte : (∀ m ∈ Mnemonic.all, defaultOpc.code m ≠ 0xFF) ∧
    (demo 253 [] [(253, [0xFF])]).status = .running ∧ (demo 253 [] [(253, [0xFF])]).pc.toNat ≤ 253 ∧
    (demo 253 [] [(253, [0xFF])]).mem.read 253 = 0xFF := by decide
theorem witness_DecodeSelectsByOpcodeAlone_known : fetch (demo 253 [] [(253, [1])]) = .ok ⟨1, 0, 0⟩ ∧
    decodeWith defaultOpc 1 0 0 = .ok .hlt := by decide
theorem witness_DecodeSelectsByOpcodeAlone_unknown : fetch (demo 0 [] []) = .ok ⟨0, 0, 0⟩ ∧
    ∀ m ∈ Mnemonic.all, defaultOpc.code m ≠ 0 := by decide
theorem witness_WidthIsFixedByTheOpcode : (demo 253 [] []).pc.toNat ≤ 253 ∧
    decodeWith defaultOpc 0x47 0 9 = .ok (.prn 0) ∧ (Instr.prn 0).mnemonic.width = 2 ∧
    decodeWith defaultOpc 0x11 9 9 = .ok .ret ∧ Instr.ret.mnemonic.width = 1 := by decide
theorem witness_UnknownOpcodesNumber247 : defaultOpc.wf = true := by decide
theorem witness_MemReadContract : (0 ≤ (0 : Int) ∧ (0 : Int) ≤ 255) ∧ (0 ≤ (255 : Int) ∧ (255 : Int) ≤ 255) ∧
    ¬ (0 ≤ (-1 : Int) ∧ (-1 : Int) ≤ 255) ∧ ¬ (0 ≤ (256 : Int) ∧ (256 : Int) ≤ 255) := by decide
theorem witness_MemWriteContract : (0 ≤ (255 : Int) ∧ (255 : Int) ≤ 255) ∧ ¬ (0 ≤ (256 : Int) ∧ (256 : Int) ≤ 255) := by decide
theorem witness_CanonicalMemoryIsExtensional : Memory.wf [(0, 1), (255, 2)] ∧ Memory.wf (Memory.write [(255, 2)] 0 1) ∧
    ∀ a < 256, Memory.read [(0, 1), (255, 2)] a = (Memory.write [(255, 2)] 0 1).read a := by
  refine ⟨by decide, by decide, fun a _ => ?_⟩
  rfl
theorem witness_AluWritesTheValueModulo256 : (2 : RegIdx) ≠ 1 := by decide
theorem witness_MemoryChangesOnlyByPushAndCall : ∃ t, stepWith defaultOpc (demo 0 [] [(0, [0x45, 0])]) = .next t := ⟨_, rfl⟩

theorem witness_LdiLoadsTheImmediate : (7 : Byte).toNat < 8 ∧ (demo 252 [] []).pc.toNat + 3 ≤ 255 := by decide
theorem witness_PrnEmitsTheRegister : (7 : Byte).toNat < 8 ∧ (demo 253 [] []).pc.toNat + 2 ≤ 255 := by decide
theorem witness_AddWritesTheSumModulo256 : (7 : Byte).toNat < 8 ∧ (0 : Byte).toNat < 8 ∧ (demo 252 [] []).pc.toNat + 3 ≤ 255 := by decide
theorem witness_MulWritesTheProductModulo256 : (7 : Byte).toNat < 8 ∧ (7 : Byte).toNat < 8 ∧ (demo 252 [] []).pc.toNat + 3 ≤ 255 := by decide
theorem witness_PushStoresAtTheDecrementedSp : (7 : Byte).toNat < 8 ∧ (demo 253 [(7, 1)] []).sp.toNat ≠ 0 ∧
    (demo 253 [(7, 1)] []).pc.toNat + 2 ≤ 255 := by decide
theorem witness_PopLoadsFromSp : (6 : Byte).toNat < 8 ∧ (demo 253 [(7, 254)] []).pc.toNat + 2 ≤ 255 ∧ (6 : Byte).toNat ≠ 7 ∧
    (demo 253 [(7, 254)] []).sp.toNat ≠ 255 := by decide
theorem witness_PopLoadsFromSp_x7 : (7 : Byte).toNat < 8 ∧ (demo 253 [(7, 255)] [(255, [254])]).pc.toNat + 2 ≤ 255 ∧ (7 : Byte).toNat = 7 ∧
    ((demo 253 [(7, 255)] [(255, [254])]).mem.read 255).toNat ≠ 255 := by decide
theorem witness_CallPushesTheReturnAddress : (7 : Byte).toNat < 8 ∧ (demo 253 [(7, 1)] []).sp.toNat ≠ 0 ∧
    (demo 253 [(7, 1)] []).pc.toNat + 2 ≤ 255 := by decide
theorem witness_RetPopsThePc : (demo 255 [(7, 254)] []).sp.toNat ≠ 255 := by decide

theorem witness_RegisterOperandAbove7Faults : 8 ≤ (8 : Byte).toNat ∧ (7 : Byte).toNat ≤ 7 ∧ 8 ≤ (255 : Byte).toNat := by decide
theorem witness_RegisterOperandAbove7Faults_immediate : (7 : Byte).toNat ≤ 7 ∧ ∃ t, exec (.ldi 7 200) (demo 0 [] []) = .next t :=
  ⟨by decide, _, rfl⟩
theorem witness_PcAdvancePast255Faults : (7 : Byte).toNat < 8 ∧ (0 : Byte).toNat < 8 ∧ 255 < (demo 253 [] []).pc.toNat + 3 := by decide
theorem witness_PushWithSpZeroFaults : (7 : Byte).toNat < 8 ∧ (demo 253 [(7, 0)] []).sp.toNat = 0 ∧
    (demo 253 [(7, 0)] []).pc.toNat + 2 ≤ 255 := by decide
theorem witness_PopPastSp255Faults : (demo 0 [(7, 255)] []).sp.toNat = 255 ∧ (6 : Byte).toNat < 7 ∧ (7 : Byte).toNat = 7 ∧
    ((demo 0 [(7, 0)] [(0, [255])]).mem.read (demo 0 [(7, 0)] [(0, [255])]).sp.toNat).toNat = 255 := by decide
theorem witness_TwoByteAdvancePast255Faults : (7 : Byte).toNat < 8 ∧ 253 < (demo 254 [(7, 1)] []).pc.toNat ∧
    (demo 254 [(7, 1)] []).sp.toNat ≠ 0 ∧ ((demo 254 [(7, 1)] []).mem.read 1).toNat ≠ 255 := by decide
theorem witness_FetchPastTheTopFaults : (demo 254 [] []).status = .running ∧ 254 ≤ (demo 254 [] []).pc.toNat := by decide
theorem witness_UnknownOpcodeHasOneCause : ∃ t, stepWith defaultOpc (demo 253 [] []) = .next t ∧
    t.status = .faulted (.unknownOpcode 0 253) := ⟨_, rfl, by decide⟩
theorem witness_OutOfBounds_fetch : ∃ t, stepWith defaultOpc (demo 255 [] []) = .next t ∧
    t.status = .faulted (.outOfBoundsAccess .mem 256 255) := ⟨_, rfl, by decide⟩
theorem witness_OutOfBounds_first_register : ∃ t, stepWith defaultOpc (demo 0 [] [(0, [0xA0, 8, 9])]) = .next t ∧
    t.status = .faulted (.outOfBoundsAccess .reg 8 0) := ⟨_, rfl, by decide⟩
theorem witness_OutOfBounds_second_register : ∃ t, stepWith defaultOpc (demo 0 [] [(0, [0xA0, 0, 8])]) = .next t ∧
    t.status = .faulted (.outOfBoundsAccess .reg 8 0) := ⟨_, rfl, by decide⟩
theorem witness_OutOfBounds_push : ∃ t, stepWith defaultOpc (demo 0 [(7, 0)] [(0, [0x50, 0])]) = .next t ∧
    t.status = .faulted (.outOfBoundsAccess .mem (-1) 0) := ⟨_, rfl, by decide⟩
theorem witness_OutOfBounds_pop : ∃ t, stepWith defaultOpc (demo 0 [(7, 240)] [(0, [0x46, 7]), (240, [255])]) = .next t ∧
    t.status = .faulted (.outOfBoundsAccess .mem 256 0) := ⟨_, rfl, by decide⟩
theorem witness_OutOfBounds_pc : ∃ t, stepWith defaultOpc (demo 253 [] [(253, [0xA2, 0, 1])]) = .next t ∧
    t.status = .faulted (.outOfBoundsAccess .mem 256 253) := ⟨_, rfl, by decide⟩
theorem witness_UnsupportedAluIsUnreachable : ∃ t, stepWith defaultOpc (demo 0 [] [(0, [0xA0, 0, 1])]) = .next t := ⟨_, rfl⟩
theorem witness_FaultEntryIsPrecise : ∃ t, stepWith defaultOpc (demo 0 [] [(0, [0x47, 9])]) = .next t ∧
    t.status = .faulted (.outOfBoundsAccess .reg 9 0) := ⟨_, rfl, by decide⟩

theorem witness_StepRunsTheDecodedInstruction : (demo 253 [] [(253, [0x47, 7])]).status = .running ∧
    (demo 253 [] [(253, [0x47, 7])]).pc.toNat ≤ 253 ∧ decodeWith defaultOpc ((demo 253 [] [(253, [0x47, 7])]).mem.read 253)
      ((demo 253 [] [(253, [0x47, 7])]).mem.read 254) ((demo 253 [] [(253, [0x47, 7])]).mem.read 255) = .ok (.prn 7) := by decide
theorem witness_RunningStepHasANextState : State.reset.status = .running := by decide
theorem witness_EndedRunHasNoStep : ({ State.reset with status := .halted } : State).status = .halted ∧
    ({ State.reset with status := .faulted (.unknownOpcode 0 0) } : State).status = .faulted (.unknownOpcode 0 0) := by decide
theorem witness_EmptyMemoryEndsInUnknownOpcode : ∀ m ∈ Mnemonic.all, defaultOpc.code m ≠ 0 := by decide
theorem witness_OnlyHltHalts : defaultOpc.wf = true ∧ ∃ t, stepWith defaultOpc (demo 253 [] [(253, [1])]) = .next t ∧ t.status = .halted :=
  ⟨by decide, _, rfl, by decide⟩
theorem witness_OutputGrowsOnlyByPrn : ∃ t, stepWith defaultOpc (demo 0 [] [(0, [0x47, 7])]) = .next t ∧ t.output = [244] :=
  ⟨_, rfl, by decide⟩
theorem witness_PcAfterAStep_ended : ∃ t, stepWith defaultOpc (demo 0 [] []) = .next t ∧ t.status ≠ .running := ⟨_, rfl, by decide⟩
theorem witness_PcAfterAStep_running : ∃ t, stepWith defaultOpc (demo 0 [] [(0, [0x50, 7])]) = .next t ∧ t.status = .running :=
  ⟨_, rfl, by decide⟩
/-- The store lands on the second operand byte of the next fetch, at the top of memory. -/
theorem witness_FetchSeesAStoreAtOnce_push : (6 : Byte).toNat < 8 ∧ pushAddress (demo 251 [(6, 9), (7, 255)] []) = .ok 254 ∧
    ∃ t : State, exec (.push 6) (demo 251 [(6, 9), (7, 255)] []) = .next t ∧ t.status = .running ∧ t.pc.toNat ≤ 253 :=
  ⟨by decide, by decide, _, rfl, by decide, by decide⟩
/-- C2: CALL X7 jumps to the byte it has just stored. -/
theorem witness_FetchSeesAStoreAtOnce_call : (7 : Byte).toNat < 8 ∧ pushAddress (demo 0 [] []) = .ok 243 ∧
    ∃ t : State, exec (.call 7) (demo 0 [] []) = .next t ∧ t.status = .running ∧ t.pc.toNat ≤ 253 ∧ t.pc = 243 :=
  ⟨by decide, by decide, _, rfl, by decide, by decide, by decide⟩
/-- C2, its next fetch: `02 00 00`. -/
theorem test_call_x7_fetches_its_own_byte : (after (exec (.call 7) (demo 0 [] []))).map (fun t => fetch t) = some (.ok ⟨2, 0, 0⟩) := by decide

theorem witness_AluThenPrnPrintsTheResult : (7 : Byte).toNat < 8 ∧ (7 : Byte).toNat < 8 ∧ (demo 250 [] []).pc.toNat + 5 ≤ 255 := by decide
theorem witness_PushThenPopRestoresSp : (demo 251 [(7, 1)] []).sp.toNat ≠ 0 ∧ (demo 251 [(7, 1)] []).pc.toNat + 4 ≤ 255 ∧
    (6 : Byte).toNat < 7 ∧ (6 : Byte).toNat < 7 := by decide
theorem witness_CallThenRetReturnsAfterTheCall : (1 : Byte).toNat < 8 ∧ (demo 6 [(1, 0x0B)] []).sp.toNat ≠ 0 ∧
    (demo 6 [(1, 0x0B)] []).pc.toNat + 2 ≤ 255 ∧ ∃ t u : State, exec (.call 1) (demo 6 [(1, 0x0B)] []) = .next t ∧ u.sp = t.sp ∧
      u.mem.read u.sp.toNat = t.mem.read t.sp.toNat ∧ u.pc = 0x0E :=
  ⟨by decide, by decide, by decide, _, demo 0x0E [(7, 243)] [(243, [8])], rfl, by decide, by decide, by decide⟩
theorem witness_PushThenRetJumps : (6 : Byte).toNat < 7 ∧ (demo 253 [(7, 1)] []).sp.toNat ≠ 0 ∧ (demo 253 [(7, 1)] []).pc.toNat + 2 ≤ 255 := by
  decide
theorem witness_LdiIsIdempotent : (7 : Byte).toNat < 8 ∧ (demo 249 [] []).pc.toNat + 6 ≤ 255 := by decide

theorem witness_StepKeepsInv : (demo 0 [] [(0, [0x45, 7])]).Inv ∧ ∃ t, stepWith defaultOpc (demo 0 [] [(0, [0x45, 7])]) = .next t :=
  ⟨⟨by decide, rfl⟩, _, rfl⟩
theorem witness_LoadKeepsInv : (demo 0 [] [(0, [1])]).Inv := ⟨by decide, rfl⟩
theorem witness_LoadPlacesTheBytes : ([1] : List Byte) ≠ [] ∧ (255 : Byte).toNat + ([1] : List Byte).length ≤ 256 := by decide
theorem witness_LoadOriginIsZeroByDefault : List.replicate 256 (1 : Byte) ≠ [] ∧ (List.replicate 256 (1 : Byte)).length ≤ 256 :=
  ⟨List.cons_ne_nil _ _, Nat.le_of_eq List.length_replicate⟩
theorem witness_LoadReportsItsConditions : 256 < (255 : Byte).toNat + ([1, 1] : List Byte).length := by decide
theorem witness_RunReturnsTheEndedRun_returned : ∃ t, runWith defaultOpc 1 (demo 0 [] [(0, [1])]) = some t := ⟨_, rfl⟩
theorem witness_RunReturnsTheEndedRun_reached : ∃ t : State, StepsTo defaultOpc 1 (demo 0 [] [(0, [1])]) t ∧ t.status ≠ .running :=
  ⟨_, ⟨by decide, _, rfl, rfl⟩, by decide⟩
theorem witness_SessionRunsOnce : (⟨State.reset, true⟩ : Session).begun = true ∧ (Session.create 244).begun = false := by decide
theorem witness_TraceGivesTheFields : (demo 253 [] []).pc.toNat ≤ 253 ∧ 253 < (demo 254 [] []).pc.toNat := by decide

theorem witness_LdiAddMulFrame : (∃ t, exec (.ldi 0 200) (demo 0 [] []) = .next t) ∧ (∃ t, exec (.add 0 9) (demo 0 [] []) = .next t) ∧
    ∃ t, exec (.mul 0 1) (demo 0 [] []) = .next t := ⟨⟨_, rfl⟩, ⟨_, rfl⟩, ⟨_, rfl⟩⟩
theorem witness_PrnHltFrame : (∃ t, exec (.prn 7) (demo 0 [] []) = .next t) ∧ ∃ t, exec .hlt (demo 0 [] []) = .next t := ⟨⟨_, rfl⟩, ⟨_, rfl⟩⟩
theorem witness_PushCallFrame : (∃ t, exec (.push 0) (demo 0 [] []) = .next t) ∧ (∃ t, exec (.call 0) (demo 0 [] []) = .next t) ∧
    pushAddress (demo 0 [(7, 1)] []) = .ok 0 ∧ pushAddress (demo 0 [(7, 0)] []) = .error (.outOfBoundsAccess .mem (-1) 0) :=
  ⟨⟨_, rfl⟩, ⟨_, rfl⟩, by decide, by decide⟩
theorem witness_PopRetFrame : (∃ t, exec (.pop 0) (demo 0 [] []) = .next t) ∧ ∃ t, exec .ret (demo 0 [] []) = .next t := ⟨⟨_, rfl⟩, ⟨_, rfl⟩⟩

end Sys2Proof.Tests
end

/-! The proofs of the family "state": what reset gives every field, what `load` leaves alone, and which steps can change memory. -/

namespace Sys2Proof.Machine

/-! ## Reset and load -/

section
variable (spInit : Byte)

@[simp] theorem State.resetWith_pc : (State.resetWith spInit).pc = 0 := rfl
@[simp] theorem State.resetWith_mem : (State.resetWith spInit).mem = [] := rfl
@[simp] theorem State.resetWith_status : (State.resetWith spInit).status = .running := rfl
@[simp] theorem State.resetWith_output : (State.resetWith spInit).output = [] := rfl
@[simp] theorem State.resetWith_diag : (State.resetWith spInit).diag = [] := rfl

/-- After reset every cell is 0 (10_state.md R24). -/
theorem State.read_resetWith (a : Nat) : (State.resetWith spInit).mem.read a = 0 := Memory.read_nil a

end

/-- `load` changes memory at most, whatever it reports (20_memory.md R44, R45). -/
theorem load_changes_only_mem (bytes : List Byte) (origin : Byte) (s : State) :
    (load bytes origin s).2 = { s with mem := (load bytes origin s).2.mem } := by
  unfold load
  split
  · rfl
  · split <;> rfl

@[simp] theorem load_pc (bytes : List Byte) (origin : Byte) (s : State) : (load bytes origin s).2.pc = s.pc := by
  rw [load_changes_only_mem]

/-- Settles O14: the fields of the reset state, and the frame of `load`. -/
theorem entryPointIsAddressZero : Obligations.EntryPointIsAddressZero :=
  ⟨fun spInit => ⟨State.resetWith_pc spInit, State.resetWith_status spInit⟩, load_pc⟩

/-! ## Which instructions keep memory: all but PUSH and CALL -/

section
variable {ra rb imm : Byte} {s t : State}

theorem incSp_mem (h : incSp s = .ok t) : t.mem = s.mem := by
  obtain ⟨-, e⟩ | ⟨-, e⟩ := incSp_cases s
  · obtain rfl := Except.ok.inj (e.symm.trans h)
    rfl
  · exact nomatch e.symm.trans h

theorem execLdi_mem (h : execLdi ra imm s = .next t) : t.mem = s.mem := by
  obtain ⟨f, -, rfl⟩ | ⟨r, -, ⟨f, -, rfl⟩ | ⟨npc, -, rfl⟩⟩ := execLdi_next h <;> rfl

theorem execPrn_mem (h : execPrn ra s = .next t) : t.mem = s.mem := by
  obtain ⟨f, -, rfl⟩ | ⟨r, -, ⟨f, -, rfl⟩ | ⟨npc, -, rfl⟩⟩ := execPrn_next h <;> rfl

theorem aluInstruction_mem {op : AluOp} (h : aluInstruction op ra rb s = .next t) : t.mem = s.mem := by
  obtain ⟨f, -, rfl⟩ | ⟨a, -, ⟨f, -, rfl⟩ | ⟨b, -, ⟨f, -, rfl⟩ | ⟨npc, -, rfl⟩⟩⟩ := aluInstruction_next h <;> rfl

theorem execPop_mem (h : execPop ra s = .next t) : t.mem = s.mem := by
  obtain ⟨f, -, rfl⟩ | ⟨r, -, ⟨f, -, rfl⟩ | ⟨s1, hs1, ⟨f, -, rfl⟩ | ⟨npc, -, rfl⟩⟩⟩ := execPop_next h
  · rfl
  · rfl
  · rfl
  · simpa using incSp_mem hs1

theorem execRet_mem (h : execRet s = .next t) : t.mem = s.mem := by
  obtain ⟨f, -, rfl⟩ | ⟨s1, hs1, rfl⟩ := execRet_next h
  · rfl
  · simpa using incSp_mem hs1

theorem execHlt_mem (h : execHlt s = .next t) : t.mem = s.mem := by
  obtain rfl := Host.Outcome.next.inj h
  rfl

/-- An instruction keeps memory, or it is PUSH or CALL (10_state.md R24). -/
theorem exec_mem_or_push_or_call {i : Instr} (h : exec i s = .next t) :
    t.mem = s.mem ∨ ∃ ra, i = .push ra ∨ i = .call ra := by
  cases i with
  | hlt => exact .inl (execHlt_mem h)
  | ldi ra imm => exact .inl (execLdi_mem h)
  | prn ra => exact .inl (execPrn_mem h)
  | add ra rb => exact .inl (aluInstruction_mem h)
  | mul ra rb => exact .inl (aluInstruction_mem h)
  | push ra => exact .inr ⟨ra, .inl rfl⟩
  | pop ra => exact .inl (execPop_mem h)
  | call ra => exact .inr ⟨ra, .inr rfl⟩
  | ret => exact .inl (execRet_mem h)

end

/-- Decoding an opcode byte that the lookup knows. -/
theorem decodeWith_of_lookupOpcode {opc : OpcodeMap} {ir : Byte} {m : Mnemonic} (h : lookupOpcode opc ir = some m)
    (opa opb : Byte) : decodeWith opc ir opa opb = .ok (assemble m opa opb) := by
  simp [decodeWith, h]

/-- A step keeps memory, or it executed a PUSH or a CALL: fault entry, in fetch and in decode, stores nothing. -/
theorem stepWith_mem_or_push_or_call {opc : OpcodeMap} {s t : State} (h : stepWith opc s = .next t) :
    t.mem = s.mem ∨ ∃ b ra, fetch s = .ok b ∧
      (decodeWith opc b.ir b.opa b.opb = .ok (.push ra) ∨ decodeWith opc b.ir b.opa b.opb = .ok (.call ra)) := by
  obtain ⟨-, ⟨f, -, rfl⟩ | ⟨b, -, -, rfl⟩ | ⟨b, m, hb, hm, hexec⟩⟩ := stepWith_next h
  · exact .inl (enterFault_mem s f)
  · exact .inl (enterFault_mem s _)
  · obtain hmem | ⟨ra, hi⟩ := exec_mem_or_push_or_call hexec
    · exact .inl hmem
    · have hdecode := decodeWith_of_lookupOpcode hm b.opa b.opb
      exact .inr ⟨b, ra, hb, hi.imp (hdecode.trans <| congrArg _ ·) (hdecode.trans <| congrArg _ ·)⟩

/-- Settles O15: the empty memory and streams of the reset state, and the instruction a step that stores must have decoded. -/
theorem memoryChangesOnlyByPushAndCall : Obligations.MemoryChangesOnlyByPushAndCall :=
  ⟨State.read_resetWith, fun spInit => ⟨State.resetWith_output spInit, State.resetWith_diag spInit⟩,
    fun _ _ _ h => stepWith_mem_or_push_or_call h⟩

end Sys2Proof.Machine

/-! The proofs of the family "memory": the access contracts, the store that the next fetch sees, the empty memory, and `load`'s origin. -/

namespace Sys2Proof.Machine

/-! ## A store is seen by the next fetch -/

section
variable {ra a : Byte} {s t : State}

/-- The registers while a push stores, SP already decremented to `a`: register 7 reads `a`, any other its old byte (43_stack.md R96). -/
theorem State.setSp_reg_operand (s : State) (a : Byte) (h : ra.toNat < 8) :
    (s.setSp a).reg ⟨ra.toNat, h⟩ = if ra.toNat = 7 then a else s.x[ra.toNat] :=
  (State.reg_setSp s _ a).trans (if_congr Fin.ext_iff rfl rfl)

/-- A push that answers a state stored one byte, the value read after SP was decremented. -/
theorem pushByte_mem {value : State → Byte} (ha : pushAddress s = .ok a) (h : pushByte value s = .ok t) :
    t.mem = s.mem.write a.toNat (value (s.setSp a)) := by
  obtain rfl := Except.ok.inj ((pushByte_ok ha).symm.trans h)
  rfl

/-- A state that fault entry answers is not running, so the step that answered it did not complete. -/
theorem enterFault_not_running (f : FaultRecord) (s : State) : (enterFault f s).status ≠ .running := nofun

/-- A PUSH that completed stored the register's byte, for X7 the decremented SP (43_stack.md R96). -/
theorem execPush_mem (hra : ra.toNat < 8) (ha : pushAddress s = .ok a) (hrun : t.status = .running)
    (h : exec (.push ra) s = .next t) : t.mem = s.mem.write a.toNat (if ra.toNat = 7 then a else s.x[ra.toNat]) := by
  obtain ⟨f, -, rfl⟩ | ⟨r, hr, ⟨f, -, rfl⟩ | ⟨s1, hs1, ⟨f, -, rfl⟩ | ⟨npc, -, rfl⟩⟩⟩ := execPush_next h
  · exact absurd hrun (enterFault_not_running f s)
  · exact absurd hrun (enterFault_not_running f s)
  · exact absurd hrun (enterFault_not_running f s)
  · obtain rfl := Except.ok.inj ((regOperand_ok s hra).symm.trans hr)
    rw [State.setPc_mem, pushByte_mem ha hs1, State.setSp_reg_operand]

/-- A CALL that completed stored its return address, `pc + 2` (44_subroutine.md R100). -/
theorem execCall_mem (ha : pushAddress s = .ok a) (hrun : t.status = .running) (h : exec (.call ra) s = .next t) :
    t.mem = s.mem.write a.toNat (BitVec.ofNat 8 (s.pc.toNat + 2)) := by
  obtain ⟨f, -, rfl⟩ | ⟨r, -, ⟨f, -, rfl⟩ | ⟨back, hback, ⟨f, -, rfl⟩ | ⟨s1, hs1, rfl⟩⟩⟩ := execCall_next h
  · exact absurd hrun (enterFault_not_running f s)
  · exact absurd hrun (enterFault_not_running f s)
  · exact absurd hrun (enterFault_not_running f s)
  · obtain ⟨-, hpc⟩ | ⟨-, hpc⟩ := pcPlus_cases 2 s.pc
    · obtain rfl := Except.ok.inj (hpc.symm.trans hback)
      rw [State.setPc_mem, pushByte_mem ha hs1]
    · exact nomatch hpc.symm.trans hback

/-- A fetch from a memory in which one cell was written: each byte is the one written where its address is that cell's (20_memory.md R41). -/
theorem fetch_of_mem_write {m : Memory} {c : Nat} {v : Byte} (hpc : t.pc.toNat ≤ 253) (hmem : t.mem = m.write c v) :
    fetch t = .ok ⟨if t.pc.toNat = c then v else m.read t.pc.toNat,
      if t.pc.toNat + 1 = c then v else m.read (t.pc.toNat + 1),
      if t.pc.toNat + 2 = c then v else m.read (t.pc.toNat + 2)⟩ := by
  rw [fetch_ok hpc, hmem, Memory.read_write, Memory.read_write, Memory.read_write]

end

/-- Settles O42: the one cell a completed PUSH or CALL wrote, read back by the fetch. -/
theorem fetchSeesAStoreAtOnce : Obligations.FetchSeesAStoreAtOnce :=
  fun _ _ _ _ hra ha hrun hpc =>
    ⟨fun h => fetch_of_mem_write hpc (execPush_mem hra ha hrun h), fun h => fetch_of_mem_write hpc (execCall_mem ha hrun h)⟩

/-! ## The contracts of one access -/

/-- Settles O9: an integer in range is a natural number whose cell is read; any other fails the range check. -/
theorem memReadContract : Obligations.MemReadContract := by
  refine fun a s => ⟨fun ⟨h0, h255⟩ => ?_, fun h => memRead_error s (by omega)⟩
  lift a to ℕ using h0
  exact memRead_natCast s (by omega)

/-- Settles O10: the write of one cell, and the law of a read after it. -/
theorem memWriteContract : Obligations.MemWriteContract := by
  refine fun a v s => ⟨fun ⟨h0, h255⟩ => ?_, fun h => memWrite_error v s (by omega)⟩
  lift a to ℕ using h0
  refine ⟨_, memWrite_natCast v s (by omega), rfl, ?_, fun b hb => ?_⟩
  · simp
  · exact (Memory.read_write ..).trans (if_neg hb)

/-! ## A run with nothing loaded -/

/-- The first fetch of a machine with nothing loaded reads three zeros (20_memory.md R45). -/
theorem fetch_resetWith (spInit : Byte) : fetch (State.resetWith spInit) = .ok ⟨0, 0, 0⟩ := by
  rw [fetch_ok (by simp)]
  simp only [State.read_resetWith]

/-- The first step of a machine with nothing loaded, when no opcode is 0x00 (20_memory.md R45). -/
theorem stepWith_resetWith {opc : OpcodeMap} (h : ∀ m, opc.code m ≠ 0) (spInit : Byte) :
    stepWith opc (State.resetWith spInit) = .next (enterFault (.unknownOpcode 0 0) (State.resetWith spInit)) :=
  stepWith_unknown (State.resetWith_status spInit) (fetch_resetWith spInit) (lookupOpcode_eq_none.2 h)

/-- The default map does not assign 0x00 (30_encoding.md R54). -/
theorem defaultOpc_code_ne_zero (m : Mnemonic) : defaultOpc.code m ≠ 0 := by cases m <;> decide

/-- Settles O16: the first step fetches the byte 0, which is no opcode; the default map is one such map. -/
theorem emptyMemoryEndsInUnknownOpcode : Obligations.EmptyMemoryEndsInUnknownOpcode :=
  ⟨fun _ spInit h => stepWith_resetWith h spInit, fun spInit => stepWith_resetWith defaultOpc_code_ne_zero spInit⟩

/-! ## The origin of `load` -/

/-- `load` of bytes that fit (20_memory.md R44). -/
theorem load_of_fits {bytes : List Byte} {origin : Byte} (s : State) (hne : bytes ≠ [])
    (hfits : origin.toNat + bytes.length ≤ Config.memSize) :
    load bytes origin s = (.loaded, { s with mem := s.mem.writeBytes origin.toNat bytes }) := by
  rw [load, if_neg hne, if_pos hfits]

/-- The byte of index `i` stands `i` cells above the first. -/
theorem Memory.read_writeBytes_getElem (m : Memory) (a : Nat) {bs : List Byte} {i : Nat} (h : i < bs.length) :
    (m.writeBytes a bs).read (a + i) = bs[i] := by
  rw [Memory.read_writeBytes, if_pos (by omega), Nat.add_sub_cancel_left, List.getD_eq_getElem _ _ h]

/-- Settles O60: `load` at its default origin 0 places byte `i` in cell `i`; the session's default origin is 0 by definition. -/
theorem loadOriginIsZeroByDefault : Obligations.LoadOriginIsZeroByDefault := by
  refine ⟨fun bytes s hne hlen => ⟨_, load_of_fits s hne ?_, fun i hi => ?_⟩, fun _ _ => rfl⟩
  · simpa [Config.memSize] using hlen
  · simpa using Memory.read_writeBytes_getElem s.mem 0 hi

end Sys2Proof.Machine

/-! The proofs of the family "encoding": the opcode byte matched as a whole, and the width that the opcode fixes. -/

namespace Sys2Proof.Machine

/-! ## The opcode byte (30_encoding.md R56) -/

section
variable {opc : OpcodeMap} {ir opa opb : Byte}

/-- Decoding a byte that is no opcode. -/
theorem decodeWith_of_not_opcode (h : ∀ m, opc.code m ≠ ir) (opa opb : Byte) :
    decodeWith opc ir opa opb = .error (.unknownOpcode ir) := by
  simp [decodeWith, lookupOpcode_eq_none.2 h]

/-- The bytes decode to an instruction exactly when the lookup knows the opcode and the instruction is assembled from it. -/
theorem decodeWith_eq_ok {i : Instr} :
    decodeWith opc ir opa opb = .ok i ↔ ∃ m, lookupOpcode opc ir = some m ∧ assemble m opa opb = i := by
  cases hm : lookupOpcode opc ir with
  | none => simp [decodeWith, hm]
  | some m => simp [decodeWith, hm]

/-- A byte is the opcode of exactly one mnemonic, or of none. -/
theorem opcode_unique_or_unknown (h : opc.wf = true) (ir : Byte) :
    (∃ m, opc.code m = ir ∧ ∀ n, opc.code n = ir → n = m) ∨ ∀ m, opc.code m ≠ ir := by
  cases hl : lookupOpcode opc ir with
  | none => exact .inr (lookupOpcode_eq_none.1 hl)
  | some m =>
    have hm : opc.code m = ir := code_of_lookupOpcode hl
    exact .inl ⟨m, hm, fun n hn => OpcodeMap.code_injective h (hn.trans hm.symm)⟩

end

/-- Settles O3: the lookup finds the one mnemonic of an opcode and none for another byte, where the step enters the fault. -/
theorem opcodeMatchedAsWholeByte : Obligations.OpcodeMatchedAsWholeByte :=
  fun _ hwf =>
    ⟨fun m opa opb => ⟨_, decodeWith_of_lookupOpcode (lookupOpcode_code hwf m) opa opb, assemble_mnemonic m opa opb⟩,
      fun _ opa opb hno => decodeWith_of_not_opcode hno opa opb,
      opcode_unique_or_unknown hwf,
      fun _ hs hpc hno => stepWith_unknown hs (fetch_ok hpc) (lookupOpcode_eq_none.2 hno)⟩

/-! ## The width (30_encoding.md R52) -/

/-- An encoding is as long as the width of its mnemonic. -/
theorem length_encodeWith (opc : OpcodeMap) (i : Instr) : (encodeWith opc i).length = i.mnemonic.width := by
  cases i <;> rfl

/-- An instruction of at most two bytes discards the third byte fetched. -/
theorem assemble_of_width_le_two {m : Mnemonic} (h : m.width ≤ 2) (opa opb opb' : Byte) :
    assemble m opa opb' = assemble m opa opb := by
  cases m with
  | ldi | add | mul => exact absurd h (by decide)
  | hlt | prn | push | pop | call | ret => rfl

/-- An instruction of one byte discards the second and the third byte fetched. -/
theorem assemble_of_width_le_one {m : Mnemonic} (h : m.width ≤ 1) (opa opb opa' opb' : Byte) :
    assemble m opa' opb' = assemble m opa opb := by
  cases m with
  | ldi | add | mul | prn | push | pop | call => exact absurd h (by decide)
  | hlt | ret => rfl

/-- Settles O5: the length of an encoding is its mnemonic's width, fetch reads three bytes, and `assemble` discards those beyond
the width. -/
theorem widthIsFixedByTheOpcode : Obligations.WidthIsFixedByTheOpcode := by
  refine ⟨fun opc i => ?_, fun _ => fetch_ok, fun opc ir opa opb opa' opb' i hi => ?_⟩
  · rw [length_encodeWith]
    cases i.mnemonic <;> rfl
  · obtain ⟨m, hm, rfl⟩ := decodeWith_eq_ok.1 hi
    rw [assemble_mnemonic]
    exact ⟨fun h => decodeWith_eq_ok.2 ⟨m, hm, assemble_of_width_le_two h.le opa opb opb'⟩,
      fun h => decodeWith_eq_ok.2 ⟨m, hm, assemble_of_width_le_one h.le opa opb opa' opb'⟩⟩

end Sys2Proof.Machine

/-! The proofs of the family "execution cycle": decoding by the opcode alone, the register operand check, the PC after a step, and `run`. -/

namespace Sys2Proof.Machine

/-! ## Decode (40_execution_cycle.md R72) -/

/-- The choice of instruction is the lookup of the opcode byte: other operand bytes make the same choice. -/
theorem decodeWith_map_mnemonic (opc : OpcodeMap) (ir opa opb opa' opb' : Byte) :
    (decodeWith opc ir opa opb).map Instr.mnemonic = (decodeWith opc ir opa' opb').map Instr.mnemonic := by
  cases hm : lookupOpcode opc ir with
  | none => simp only [decodeWith, hm]
  | some m => simp [decodeWith_of_lookupOpcode hm, Except.map]

/-- Settles O4: a decoded instruction comes from a known opcode, where the step executes it; an unknown opcode enters the fault. -/
theorem decodeSelectsByOpcodeAlone : Obligations.DecodeSelectsByOpcodeAlone := by
  refine fun opc => ⟨fun s b i hs hb hi => ?_, fun s b hs hb hno => ?_, decodeWith_map_mnemonic opc⟩
  · obtain ⟨m, hm, rfl⟩ := decodeWith_eq_ok.1 hi
    exact stepWith_exec hs hb hm
  · exact stepWith_unknown hs hb (lookupOpcode_eq_none.2 hno)

/-! ## The register operand check (40_execution_cycle.md R74, R76) -/

section
variable {ra rb imm : Byte} {s t : State} {f : FaultRecord}

/-- An execute part whose first operation raises takes that fault, whatever would follow. -/
theorem commit_bind_error {α : Type} {e : Except FaultRecord α} {k : α → Except FaultRecord State} (h : e = .error f) :
    commit s (e >>= k) = .next (enterFault f s) :=
  commit_bind_next.2 (.inl ⟨f, h, rfl⟩)

/-- An execute part whose first operation answers a value goes on with it. -/
theorem commit_bind_ok {α : Type} {e : Except FaultRecord α} {a : α} {k : α → Except FaultRecord State} (h : e = .ok a) :
    commit s (e >>= k) = commit s (k a) := by
  rw [h, ok_bind]

/-- The seven instructions with a register operand check `opa` before anything else. -/
theorem exec_first_operand_error (h : regOperand ra s = .error f) :
    ∀ i ∈ [Instr.ldi ra rb, .prn ra, .add ra rb, .mul ra rb, .push ra, .pop ra, .call ra],
      exec i s = .next (enterFault f s) := by
  simp only [List.forall_mem_cons]
  exact ⟨commit_bind_error h, commit_bind_error h, commit_bind_error h, commit_bind_error h, commit_bind_error h,
    commit_bind_error h, commit_bind_error h, nofun⟩

/-- The ALU instructions check `opb` next, before the PC advance. -/
theorem aluInstruction_second_operand_error {op : AluOp} {a : RegIdx} (ha : regOperand ra s = .ok a)
    (hb : regOperand rb s = .error f) : aluInstruction op ra rb s = .next (enterFault f s) :=
  (commit_bind_ok ha).trans (commit_bind_error hb)

/-- LDI with a legal register keeps the status, or faults in its PC advance: the immediate is not checked. -/
theorem execLdi_status (hra : ra.toNat < 8) (h : execLdi ra imm s = .next t) :
    t.status = s.status ∨ t.status = .faulted (.outOfBoundsAccess .mem (s.pc.toNat + 3) s.pc) := by
  obtain ⟨f, hr, -⟩ | ⟨r, -, ⟨f, hpc, rfl⟩ | ⟨npc, -, rfl⟩⟩ := execLdi_next h
  · exact nomatch (regOperand_ok s hra).symm.trans hr
  · obtain ⟨-, e⟩ | ⟨-, e⟩ := pcPlus_cases 3 s.pc
    · exact nomatch e.symm.trans hpc
    · obtain rfl := Except.error.inj (e.symm.trans hpc)
      exact .inr rfl
  · exact .inl rfl

end

/-- Settles O26: the check's two answers, the instructions whose execute part begins with it, and LDI's remaining fault. -/
theorem registerOperandAbove7Faults : Obligations.RegisterOperandAbove7Faults := by
  refine ⟨fun b s => ⟨fun h => regOperand_ok s (by omega), fun h => regOperand_error s (by omega)⟩,
    fun ra rb s hra => exec_first_operand_error (regOperand_error s (by omega)), fun ra rb s hra hrb => ?_,
    fun ra imm s t hra h => execLdi_status (by omega) h⟩
  have hok := regOperand_ok (b := ra) s (by omega)
  have herror := regOperand_error (b := rb) s (by omega)
  simp only [List.forall_mem_cons]
  exact ⟨aluInstruction_second_operand_error hok herror, aluInstruction_second_operand_error hok herror, nofun⟩

/-! ## The PC after a step (40_execution_cycle.md R75) -/

section
variable {ra rb imm : Byte} {s t u : State} {w : Nat}

/-- The PC advance is exact: it never wraps (10_state.md R15). -/
theorem pcPlus_toNat {pc npc : Byte} (h : pcPlus w pc = .ok npc) : npc.toNat = pc.toNat + w := by
  obtain ⟨hle, e⟩ | ⟨-, e⟩ := pcPlus_cases w pc
  · obtain rfl := Except.ok.inj (e.symm.trans h)
    rw [BitVec.toNat_ofNat, Nat.mod_eq_of_lt (by omega)]
  · exact nomatch e.symm.trans h

/-- The register index that the check answers is the whole operand byte. -/
theorem regOperand_eq_ok {r : RegIdx} (h : regOperand ra s = .ok r) : ∃ hra : ra.toNat < 8, r = ⟨ra.toNat, hra⟩ := by
  obtain ⟨hra, e⟩ | ⟨-, e⟩ := regOperand_cases ra s
  · exact ⟨hra, Except.ok.inj (h.symm.trans e)⟩
  · exact nomatch h.symm.trans e

/-- In an execute part that left the machine running, no operation raised: each answered a value for the rest. -/
theorem commit_bind_running {α : Type} {e : Except FaultRecord α} {k : α → Except FaultRecord State}
    (hrun : t.status = .running) (h : commit s (e >>= k) = .next t) : ∃ a, e = .ok a ∧ commit s (k a) = .next t := by
  obtain ⟨f, -, rfl⟩ | hok := commit_bind_next.1 h
  · exact absurd hrun (enterFault_not_running f s)
  · exact hok

/-- The common end of the instructions that do not set the PC themselves: advance by the width and commit. -/
theorem commit_pcPlus_pc (hrun : t.status = .running)
    (h : commit s (pcPlus w s.pc >>= fun npc => pure (u.setPc npc)) = .next t) : t.pc.toNat = s.pc.toNat + w := by
  obtain ⟨npc, hnpc, h⟩ := commit_bind_running hrun h
  obtain rfl := commit_pure_next.1 h
  exact pcPlus_toNat hnpc

theorem execLdi_pc (hrun : t.status = .running) (h : execLdi ra imm s = .next t) : t.pc.toNat = s.pc.toNat + 3 := by
  obtain ⟨r, -, h⟩ := commit_bind_running hrun h
  exact commit_pcPlus_pc hrun h

theorem execPrn_pc (hrun : t.status = .running) (h : execPrn ra s = .next t) : t.pc.toNat = s.pc.toNat + 2 := by
  obtain ⟨r, -, h⟩ := commit_bind_running hrun h
  exact commit_pcPlus_pc hrun h

theorem aluInstruction_pc {op : AluOp} (hrun : t.status = .running) (h : aluInstruction op ra rb s = .next t) :
    t.pc.toNat = s.pc.toNat + 3 := by
  obtain ⟨a, -, h⟩ := commit_bind_running hrun h
  obtain ⟨b, -, h⟩ := commit_bind_running hrun h
  exact commit_pcPlus_pc hrun h

theorem execPush_pc (hrun : t.status = .running) (h : execPush ra s = .next t) : t.pc.toNat = s.pc.toNat + 2 := by
  obtain ⟨r, -, h⟩ := commit_bind_running hrun h
  obtain ⟨s1, -, h⟩ := commit_bind_running hrun h
  exact commit_pcPlus_pc hrun h

theorem execPop_pc (hrun : t.status = .running) (h : execPop ra s = .next t) : t.pc.toNat = s.pc.toNat + 2 := by
  obtain ⟨r, -, h⟩ := commit_bind_running hrun h
  obtain ⟨v, -, h⟩ := commit_bind_running hrun h
  obtain ⟨s1, -, h⟩ := commit_bind_running hrun h
  exact commit_pcPlus_pc hrun h

/-- CALL jumps to its register as the push leaves it, for X7 the decremented SP (44_subroutine.md R100). -/
theorem execCall_pc (hrun : t.status = .running) (h : execCall ra s = .next t) :
    ∃ hra : ra.toNat < 8, t.pc = t.x[ra.toNat] := by
  obtain ⟨r, hr, h⟩ := commit_bind_running hrun h
  obtain ⟨back, -, h⟩ := commit_bind_running hrun h
  obtain ⟨s1, -, h⟩ := commit_bind_running hrun h
  obtain rfl := commit_pure_next.1 h
  obtain ⟨hra, rfl⟩ := regOperand_eq_ok hr
  exact ⟨hra, rfl⟩

/-- RET jumps to the byte at SP (44_subroutine.md R101). -/
theorem execRet_pc (hrun : t.status = .running) (h : execRet s = .next t) : t.pc = s.mem.read s.sp.toNat := by
  obtain ⟨v, hv, h⟩ := commit_bind_running hrun h
  obtain ⟨s1, -, h⟩ := commit_bind_running hrun h
  obtain rfl := commit_pure_next.1 h
  exact Except.ok.inj (hv.symm.trans (topByte_ok s))

/-- An instruction that ends the run, by HLT or by a fault, leaves the PC at itself. -/
theorem exec_pc_of_not_running {i : Instr} (hs : s.status = .running) (ht : t.status ≠ .running)
    (h : exec i s = .next t) : t.pc = s.pc := by
  obtain ⟨f, rfl⟩ | ⟨-, rfl⟩ | ⟨-, hst, -⟩ := exec_next_status h
  · exact enterFault_pc s f
  · rfl
  · exact absurd (hst.trans hs) ht

/-- A step that ends the run leaves the PC alone. -/
theorem stepWith_pc_of_not_running {opc : OpcodeMap} (ht : t.status ≠ .running) (h : stepWith opc s = .next t) :
    t.pc = s.pc := by
  obtain ⟨hs, ⟨f, -, rfl⟩ | ⟨b, -, -, rfl⟩ | ⟨b, m, -, -, hexec⟩⟩ := stepWith_next h
  · exact enterFault_pc s f
  · exact enterFault_pc s _
  · exact exec_pc_of_not_running hs ht hexec

/-- A step that leaves the machine running executed an instruction: neither fetch nor decode raised. -/
theorem stepWith_exec_of_running {opc : OpcodeMap} (ht : t.status = .running) (h : stepWith opc s = .next t) :
    ∃ b m, fetch s = .ok b ∧ lookupOpcode opc b.ir = some m ∧ exec (assemble m b.opa b.opb) s = .next t := by
  obtain ⟨-, ⟨f, -, rfl⟩ | ⟨b, -, -, rfl⟩ | hexec⟩ := stepWith_next h
  · exact absurd ht (enterFault_not_running f s)
  · exact absurd ht (enterFault_not_running _ s)
  · exact hexec

/-- A HLT never leaves the machine running (45_system.md R105). -/
theorem execHlt_not_running (h : execHlt s = .next t) : t.status ≠ .running := by
  obtain rfl := Host.Outcome.next.inj h
  nofun

end

/-- Settles O41: a step that ends the run keeps the PC; one that goes on executed an instruction, and each says where the PC went. -/
theorem pcAfterAStep : Obligations.PcAfterAStep := by
  refine fun opc s t h => ⟨fun ht => stepWith_pc_of_not_running ht h, fun ht => ?_⟩
  obtain ⟨b, m, hb, hm, hexec⟩ := stepWith_exec_of_running ht h
  refine ⟨b, _, hb, decodeWith_of_lookupOpcode hm b.opa b.opb, ?_⟩
  cases m with
  | hlt => exact absurd ht (execHlt_not_running hexec)
  | ldi => exact execLdi_pc ht hexec
  | prn => exact execPrn_pc ht hexec
  | add => exact aluInstruction_pc ht hexec
  | mul => exact aluInstruction_pc ht hexec
  | push => exact execPush_pc ht hexec
  | pop => exact execPop_pc ht hexec
  | call => exact execCall_pc ht hexec
  | ret => exact execRet_pc ht hexec

/-! ## `run` (40_execution_cycle.md R70, R78) -/

section
variable {opc : OpcodeMap} {s t : State}

/-- A running machine always has a next state (00_scope.md R9). -/
theorem stepWith_exists_next (hs : s.status = .running) : ∃ t, stepWith opc s = .next t := by
  cases hf : fetch s with
  | error f => exact ⟨_, stepWith_fetch_error hs hf⟩
  | ok b =>
    cases hl : lookupOpcode opc b.ir with
    | none => exact ⟨_, stepWith_unknown hs hf hl⟩
    | some m =>
      rw [stepWith_exec hs hf hl]
      exact exec_exists_next _ s

/-- A run that has ended was completed or failed. -/
theorem State.completed_or_failed (h : s.status ≠ .running) : s.Completed ∨ s.Failed := by
  cases hs : s.status with
  | running => exact absurd hs h
  | halted => exact .inl hs
  | faulted f => exact .inr ⟨f, hs⟩

/-- What `run` answers is an ended state that steps reach within the fuel. -/
theorem stepsTo_of_runWith {fuel : Nat} (h : runWith opc fuel s = some t) :
    t.status ≠ .running ∧ ∃ k, k ≤ fuel ∧ StepsTo opc k s t := by
  induction fuel generalizing s with
  | zero =>
    by_cases hs : s.status = .running
    · exact nomatch (runWith_zero hs).symm.trans h
    · obtain rfl := Option.some.inj ((runWith_ended hs 0).symm.trans h)
      exact ⟨hs, 0, le_rfl, rfl⟩
  | succ fuel ih =>
    by_cases hs : s.status = .running
    · obtain ⟨u, hu⟩ := stepWith_exists_next (opc := opc) hs
      obtain ⟨ht, k, hk, hsteps⟩ := ih ((runWith_succ hs hu fuel).symm.trans h)
      exact ⟨ht, k + 1, Nat.succ_le_succ hk, stepsTo_succ.2 ⟨hs, u, hu, hsteps⟩⟩
    · obtain rfl := Option.some.inj ((runWith_ended hs (fuel + 1)).symm.trans h)
      exact ⟨hs, 0, Nat.zero_le _, rfl⟩

/-- An ended state that steps reach is what `run` answers, under any fuel that suffices for them. -/
theorem runWith_of_stepsTo {k fuel : Nat} (h : StepsTo opc k s t) (ht : t.status ≠ .running) (hk : k ≤ fuel) :
    runWith opc fuel s = some t := by
  induction k generalizing s fuel with
  | zero =>
    obtain rfl := stepsTo_zero.1 h
    exact runWith_ended ht fuel
  | succ k ih =>
    obtain ⟨hs, u, hu, hsteps⟩ := stepsTo_succ.1 h
    obtain ⟨n, rfl⟩ := Nat.exists_eq_add_of_le' hk
    exact (runWith_succ hs hu (n + k)).trans (ih hsteps (by omega))

end

/-- Settles O53: by induction on the fuel one way, on the steps the other. -/
theorem runReturnsTheEndedRun : Obligations.RunReturnsTheEndedRun := by
  refine fun opc => ⟨fun fuel s t h => ?_, fun k s t h ht fuel hk => runWith_of_stepsTo h ht hk⟩
  obtain ⟨ht, hreached⟩ := stepsTo_of_runWith h
  exact ⟨State.completed_or_failed ht, hreached⟩

end Sys2Proof.Machine

/-! The proofs of the family "data movement and output": the frame of PRN and of HLT. -/

namespace Sys2Proof.Machine

section
variable {ra : Byte} {s t : State}

/-- An instruction other than HLT leaves the status and the diagnostic stream alone, or fault entry is all it did (40_execution_cycle.md R73). -/
theorem exec_status_diag_or_enterFault {i : Instr} (hi : i ≠ .hlt) (h : exec i s = .next t) :
    (t.status = s.status ∧ t.diag = s.diag) ∨ ∃ f, t = enterFault f s := by
  obtain hfault | ⟨hhlt, -⟩ | ⟨-, hkept⟩ := exec_next_status h
  · exact .inr hfault
  · exact absurd hhlt hi
  · exact .inl hkept

/-- PRN writes no register, whether it completes or faults (41_data_movement_output.md R86). -/
theorem execPrn_reg (h : execPrn ra s = .next t) (r : RegIdx) : t.reg r = s.reg r := by
  obtain ⟨f, -, rfl⟩ | ⟨r', -, ⟨f, -, rfl⟩ | ⟨npc, -, rfl⟩⟩ := execPrn_next h
  · exact enterFault_reg s r f
  · exact enterFault_reg s r f
  · simp

/-- HLT answers the state it was given, halted (45_system.md R105). -/
theorem execHlt_next : execHlt s = .next t ↔ t = { s with status := .halted } := by
  simp [execHlt, eq_comm]

end

/-- Settles O57: PRN writes no register and no cell, and takes a fault or keeps the status; HLT writes the status alone. -/
theorem prnHltFrame : Obligations.PrnHltFrame := by
  refine fun ra s t => ⟨fun h => ⟨execPrn_reg h, fun a => congrArg (·.read a) (execPrn_mem h), ?_⟩, fun h => ?_⟩
  · obtain hkept | ⟨f, rfl⟩ := exec_status_diag_or_enterFault (i := .prn ra) nofun h
    · exact .inl hkept
    · exact .inr ⟨f, enterFault_status s f, enterFault_diag s f, enterFault_output s f⟩
  · obtain rfl := execHlt_next.1 h
    exact ⟨fun _ => rfl, fun _ => rfl, rfl, rfl, rfl⟩

end Sys2Proof.Machine

/-! The proofs of the family "stack": a pop that would move SP past 255. -/

namespace Sys2Proof.Machine

section
variable {ra : Byte} {s : State} {f : FaultRecord}

/-- SP once a register operand is written: register 7 is SP itself, any other leaves it (10_state.md R12). -/
theorem State.sp_setReg_operand (s : State) (v : Byte) (h : ra.toNat < 8) :
    (s.setReg ⟨ra.toNat, h⟩ v).sp = if ra.toNat = 7 then v else s.sp :=
  (State.sp_setReg s _ v).trans (if_congr (Fin.ext_iff.trans eq_comm) rfl rfl)

/-- RET raises the fault of its increment: its read of the top byte never does. -/
theorem execRet_incSp_error (h : incSp s = .error f) : execRet s = .next (enterFault f s) :=
  (commit_bind_ok (topByte_ok s)).trans (commit_bind_error h)

/-- POP of a legal register raises the fault of its increment and drops the popped byte, already in the register (43_stack.md R97). -/
theorem execPop_incSp_error (hra : ra.toNat < 8)
    (h : incSp (s.setReg ⟨ra.toNat, hra⟩ (s.mem.read s.sp.toNat)) = .error f) : execPop ra s = .next (enterFault f s) :=
  calc execPop ra s
    _ = _ := commit_bind_ok (regOperand_ok s hra)
    _ = _ := commit_bind_ok (topByte_ok s)
    _ = .next (enterFault f s) := commit_bind_error h

/-- POP faults when the byte it increments is 255: the popped byte for X7, the old SP for any other register (43_stack.md R97, R98). -/
theorem execPop_past_255 (hra : ra.toNat < 8) (h : (if ra.toNat = 7 then s.mem.read s.sp.toNat else s.sp).toNat = 255) :
    execPop ra s = .next (enterFault (.outOfBoundsAccess .mem 256 s.pc) s) := by
  rw [← State.sp_setReg_operand s _ hra] at h
  exact execPop_incSp_error hra (incSp_error h)

end

/-- Settles O29: the increment is what raises, in RET from SP, in POP from the byte it increments. -/
theorem popPastSp255Faults : Obligations.PopPastSp255Faults := by
  refine fun s => ⟨fun hsp => execRet_incSp_error (incSp_error hsp), fun ra hra hsp => ?_, fun ra hra hpop => ?_⟩
  · exact execPop_past_255 (by omega) (by rwa [if_neg (by omega)])
  · exact execPop_past_255 (by omega) (by rwa [if_pos hra])

end Sys2Proof.Machine

/-! The proofs of the family "exceptions": every fault that a step can take, and the causes of `UnknownOpcode` and `OutOfBoundsAccess`. -/

namespace Sys2Proof.Machine

/-! ## The fault of one operation -/

section
variable {s t u : State} {f : FaultRecord}

theorem regOperand_eq_error {b : Byte} (h : regOperand b s = .error f) :
    8 ≤ b.toNat ∧ f = .outOfBoundsAccess .reg b.toNat s.pc := by
  obtain ⟨_, e⟩ | ⟨hb, e⟩ := regOperand_cases b s
  · exact nomatch e.symm.trans h
  · exact ⟨hb, Except.error.inj (h.symm.trans e)⟩

theorem pcPlus_eq_error {w : Nat} {pc : Byte} (h : pcPlus w pc = .error f) :
    255 < pc.toNat + w ∧ f = .outOfBoundsAccess .mem (pc.toNat + w) pc := by
  obtain ⟨-, e⟩ | ⟨hpc, e⟩ := pcPlus_cases w pc
  · exact nomatch e.symm.trans h
  · exact ⟨hpc, Except.error.inj (h.symm.trans e)⟩

theorem pushByte_eq_error {value : State → Byte} (h : pushByte value s = .error f) :
    s.sp = 0 ∧ f = .outOfBoundsAccess .mem (-1) s.pc := by
  obtain ⟨-, e⟩ | ⟨hsp, e⟩ := pushByte_cases value s
  · exact nomatch e.symm.trans h
  · exact ⟨BitVec.eq_of_toNat_eq hsp, Except.error.inj (h.symm.trans e)⟩

theorem incSp_eq_error (h : incSp s = .error f) : s.sp = 255 ∧ f = .outOfBoundsAccess .mem 256 s.pc := by
  obtain ⟨-, e⟩ | ⟨hsp, e⟩ := incSp_cases s
  · exact nomatch e.symm.trans h
  · exact ⟨BitVec.eq_of_toNat_eq hsp, Except.error.inj (h.symm.trans e)⟩

theorem fetch_eq_error (h : fetch s = .error f) : 254 ≤ s.pc.toNat ∧ f = .outOfBoundsAccess .mem 256 s.pc := by
  by_cases hpc : s.pc.toNat ≤ 253
  · exact nomatch (fetch_ok hpc).symm.trans h
  · exact ⟨by omega, Except.error.inj (h.symm.trans (fetch_error (by omega)))⟩

/-- A fetch succeeds only inside the address space (40_execution_cycle.md R71). -/
theorem pc_le_of_fetch_eq_ok {b : Fetched} (h : fetch s = .ok b) : s.pc.toNat ≤ 253 := by
  by_contra hpc
  exact nomatch (fetch_error (by omega)).symm.trans h

theorem pushByte_status {value : State → Byte} (h : pushByte value s = .ok t) : t.status = s.status := by
  obtain ⟨-, e⟩ | ⟨-, e⟩ := pushByte_cases value s
  · obtain rfl := Except.ok.inj (e.symm.trans h)
    rfl
  · exact nomatch e.symm.trans h

theorem incSp_status (h : incSp s = .ok t) : t.status = s.status := by
  obtain ⟨-, e⟩ | ⟨-, e⟩ := incSp_cases s
  · obtain rfl := Except.ok.inj (e.symm.trans h)
    rfl
  · exact nomatch e.symm.trans h

/-- In an execute part that ended in the fault `f`, the first operation raised `f`, or it answered a value for the rest. -/
theorem commit_bind_faulted {α : Type} {e : Except FaultRecord α} {k : α → Except FaultRecord State}
    (hf : t.status = .faulted f) (h : commit s (e >>= k) = .next t) :
    e = .error f ∨ ∃ a, e = .ok a ∧ commit s (k a) = .next t := by
  obtain ⟨g, hg, rfl⟩ | hok := commit_bind_next.1 h
  · exact .inl (Status.faulted.inj hf ▸ hg)
  · exact .inr hok

/-- Committing the writes of a running machine is no fault. -/
theorem commit_pure_not_faulted (hu : u.status = .running) (hf : t.status = .faulted f) : commit s (pure u) ≠ .next t := by
  intro h
  obtain rfl := commit_pure_next.1 h
  exact nomatch hu.symm.trans hf

/-- The common end of the instructions that do not set the PC themselves raises the fault of the PC advance alone. -/
theorem commit_pcPlus_faulted {w : Nat} (hf : t.status = .faulted f)
    (h : commit s (pcPlus w s.pc >>= fun npc => pure (u.setPc npc)) = .next t) (hu : u.status = .running) : pcPlus w s.pc = .error f := by
  obtain hpc | ⟨npc, -, h⟩ := commit_bind_faulted hf h
  · exact hpc
  · exact absurd h (commit_pure_not_faulted hu hf)

end

/-! ## The faults of one instruction (60_exceptions.md R111) -/

/-- The rows of R111's table that an instruction raises after its fetch succeeded: `ExecFault s opa opb m f` says that the instruction of
mnemonic `m` and operand bytes `opa` and `opb` is, in the state `s`, in a situation of the table whose record is `f`. -/
inductive ExecFault (s : State) (opa opb : Byte) : Mnemonic → FaultRecord → Prop where
  | firstOperand {m : Mnemonic} (hm : m ∈ [.ldi, .prn, .add, .mul, .push, .pop, .call]) (h : 8 ≤ opa.toNat) :
      ExecFault s opa opb m (.outOfBoundsAccess .reg opa.toNat s.pc)
  | secondOperand {m : Mnemonic} (hm : m ∈ [.add, .mul]) (h : 8 ≤ opb.toNat) :
      ExecFault s opa opb m (.outOfBoundsAccess .reg opb.toNat s.pc)
  | push {m : Mnemonic} (hm : m ∈ [.push, .call]) (h : s.sp = 0) : ExecFault s opa opb m (.outOfBoundsAccess .mem (-1) s.pc)
  | pop (h : (if opa.toNat = 7 then s.mem.read s.sp.toNat else s.sp) = 255) :
      ExecFault s opa opb .pop (.outOfBoundsAccess .mem 256 s.pc)
  | ret (h : s.sp = 255) : ExecFault s opa opb .ret (.outOfBoundsAccess .mem 256 s.pc)
  | pcAdvance {m : Mnemonic} (hm : m ∈ [.ldi, .add, .mul]) (h : s.pc = 253) :
      ExecFault s opa opb m (.outOfBoundsAccess .mem 256 s.pc)

namespace ExecFault
variable {s : State} {opa opb : Byte} {m : Mnemonic} {f : FaultRecord}

theorem of_regOperand_first (hm : m ∈ [.ldi, .prn, .add, .mul, .push, .pop, .call]) (h : regOperand opa s = .error f) :
    ExecFault s opa opb m f := by
  obtain ⟨hopa, rfl⟩ := regOperand_eq_error h
  exact .firstOperand hm hopa

theorem of_regOperand_second (hm : m ∈ [.add, .mul]) (h : regOperand opb s = .error f) : ExecFault s opa opb m f := by
  obtain ⟨hopb, rfl⟩ := regOperand_eq_error h
  exact .secondOperand hm hopb

theorem of_pushByte {value : State → Byte} (hm : m ∈ [.push, .call]) (h : pushByte value s = .error f) :
    ExecFault s opa opb m f := by
  obtain ⟨hsp, rfl⟩ := pushByte_eq_error h
  exact .push hm hsp

/-- POP increments SP after the popped byte is in the register, which is SP itself for X7 (43_stack.md R97). -/
theorem of_incSp_setReg (hopa : opa.toNat < 8)
    (h : incSp (s.setReg ⟨opa.toNat, hopa⟩ (s.mem.read s.sp.toNat)) = .error f) : ExecFault s opa opb .pop f := by
  obtain ⟨hsp, rfl⟩ := incSp_eq_error h
  exact .pop (State.sp_setReg_operand s _ hopa ▸ hsp)

theorem of_incSp (h : incSp s = .error f) : ExecFault s opa opb .ret f := by
  obtain ⟨hsp, rfl⟩ := incSp_eq_error h
  exact .ret hsp

/-- After a fetch, which reads up to `pc + 2`, an advance by 3 leaves the address space from 253 alone (10_state.md R15). -/
theorem of_pcPlus_three (hm : m ∈ [.ldi, .add, .mul]) (hfetch : s.pc.toNat ≤ 253) (h : pcPlus 3 s.pc = .error f) :
    ExecFault s opa opb m f := by
  obtain ⟨hlt, rfl⟩ := pcPlus_eq_error h
  have hpc : s.pc.toNat = 253 := by omega
  rw [hpc]
  exact .pcAdvance hm (BitVec.eq_of_toNat_eq hpc)

end ExecFault

section
variable {s t : State} {opa opb : Byte} {f : FaultRecord} (hs : s.status = .running) (hfetch : s.pc.toNat ≤ 253)
  (hf : t.status = .faulted f)

include hfetch in
/-- After a fetch, which reads up to `pc + 2`, an advance by 2 never faults. -/
theorem pcPlus_two_ne_error : pcPlus 2 s.pc ≠ .error f := by
  intro h
  obtain ⟨hlt, -⟩ := pcPlus_eq_error h
  omega

include hs hfetch hf

theorem execLdi_faulted (h : execLdi opa opb s = .next t) : ExecFault s opa opb .ldi f := by
  obtain hr | ⟨r, -, h⟩ := commit_bind_faulted hf h
  · exact .of_regOperand_first (by decide) hr
  · exact .of_pcPlus_three (by decide) hfetch (commit_pcPlus_faulted hf h hs)

theorem execPrn_faulted (h : execPrn opa s = .next t) : ExecFault s opa opb .prn f := by
  obtain hr | ⟨r, -, h⟩ := commit_bind_faulted hf h
  · exact .of_regOperand_first (by decide) hr
  · exact absurd (commit_pcPlus_faulted hf h hs) (pcPlus_two_ne_error hfetch)

theorem aluInstruction_faulted {op : AluOp} {m : Mnemonic} (hm : m ∈ [.add, .mul])
    (h : aluInstruction op opa opb s = .next t) : ExecFault s opa opb m f := by
  obtain hr | ⟨a, -, h⟩ := commit_bind_faulted hf h
  · exact .of_regOperand_first ((show [Mnemonic.add, .mul] ⊆ _ by decide) hm) hr
  obtain hr | ⟨b, -, h⟩ := commit_bind_faulted hf h
  · exact .of_regOperand_second hm hr
  · exact .of_pcPlus_three (List.mem_cons_of_mem _ hm) hfetch (commit_pcPlus_faulted hf h hs)

theorem execPush_faulted (h : execPush opa s = .next t) : ExecFault s opa opb .push f := by
  obtain hr | ⟨r, -, h⟩ := commit_bind_faulted hf h
  · exact .of_regOperand_first (by decide) hr
  obtain hpush | ⟨s1, hs1, h⟩ := commit_bind_faulted hf h
  · exact .of_pushByte (by decide) hpush
  · exact absurd (commit_pcPlus_faulted hf h ((pushByte_status hs1).trans hs)) (pcPlus_two_ne_error hfetch)

theorem execPop_faulted (h : execPop opa s = .next t) : ExecFault s opa opb .pop f := by
  obtain hr | ⟨r, hr, h⟩ := commit_bind_faulted hf h
  · exact .of_regOperand_first (by decide) hr
  obtain ⟨hopa, rfl⟩ := regOperand_eq_ok hr
  obtain hinc | ⟨s1, hs1, h⟩ := commit_bind_faulted hf ((commit_bind_ok (topByte_ok s)).symm.trans h)
  · exact .of_incSp_setReg hopa hinc
  · exact absurd (commit_pcPlus_faulted hf h ((incSp_status hs1).trans hs)) (pcPlus_two_ne_error hfetch)

theorem execCall_faulted (h : execCall opa s = .next t) : ExecFault s opa opb .call f := by
  obtain hr | ⟨r, -, h⟩ := commit_bind_faulted hf h
  · exact .of_regOperand_first (by decide) hr
  obtain hpc | ⟨back, -, h⟩ := commit_bind_faulted hf h
  · exact absurd hpc (pcPlus_two_ne_error hfetch)
  obtain hpush | ⟨s1, hs1, h⟩ := commit_bind_faulted hf h
  · exact .of_pushByte (by decide) hpush
  · exact absurd h (commit_pure_not_faulted ((pushByte_status hs1).trans hs) hf)

omit hfetch in
theorem execRet_faulted (h : execRet s = .next t) : ExecFault s opa opb .ret f := by
  obtain hinc | ⟨s1, hs1, h⟩ := commit_bind_faulted hf ((commit_bind_ok (topByte_ok s)).symm.trans h)
  · exact .of_incSp hinc
  · exact absurd h (commit_pure_not_faulted ((incSp_status hs1).trans hs) hf)

/-- An instruction faults in a situation of R111's table only. -/
theorem exec_faulted {m : Mnemonic} (h : exec (assemble m opa opb) s = .next t) : ExecFault s opa opb m f := by
  cases m with
  | hlt =>
    obtain rfl := execHlt_next.1 h
    exact nomatch hf
  | ldi => exact execLdi_faulted hs hfetch hf h
  | prn => exact execPrn_faulted hs hfetch hf h
  | add => exact aluInstruction_faulted hs hfetch hf (by decide) h
  | mul => exact aluInstruction_faulted hs hfetch hf (by decide) h
  | push => exact execPush_faulted hs hfetch hf h
  | pop => exact execPop_faulted hs hfetch hf h
  | call => exact execCall_faulted hs hfetch hf h
  | ret => exact execRet_faulted hs hf h

end

/-! ## The faults of one step (60_exceptions.md R111, R112) -/

/-- Every fault a step takes: in fetch, in decode, or in the execution of the instruction it decoded. -/
theorem stepWith_faulted {opc : OpcodeMap} {s t : State} {f : FaultRecord} (hf : t.status = .faulted f)
    (h : stepWith opc s = .next t) :
    (254 ≤ s.pc.toNat ∧ f = .outOfBoundsAccess .mem 256 s.pc) ∨
      (∃ b, fetch s = .ok b ∧ (∀ m, opc.code m ≠ b.ir) ∧ f = .unknownOpcode b.ir s.pc) ∨
      (∃ b m, fetch s = .ok b ∧ lookupOpcode opc b.ir = some m ∧ ExecFault s b.opa b.opb m f) := by
  obtain ⟨hs, ⟨g, hg, rfl⟩ | ⟨b, hb, hno, rfl⟩ | ⟨b, m, hb, hm, hexec⟩⟩ := stepWith_next h
  · obtain rfl := Status.faulted.inj hf
    exact .inl (fetch_eq_error hg)
  · exact .inr (.inl ⟨b, hb, lookupOpcode_eq_none.1 hno, (Status.faulted.inj hf).symm⟩)
  · exact .inr (.inr ⟨b, m, hb, hm, exec_faulted hs (pc_le_of_fetch_eq_ok hb) hf hexec⟩)

/-- Settles O32: of the faults of a step only decode's is an `UnknownOpcode`, and a byte that is no opcode leads to it. -/
theorem unknownOpcodeHasOneCause : Obligations.UnknownOpcodeHasOneCause := by
  refine fun opc s t opcode address h => ⟨fun hf => ?_, ?_⟩
  · obtain ⟨-, hrec⟩ | ⟨b, hb, hno, hrec⟩ | ⟨b, m, -, -, hcause⟩ := stepWith_faulted hf h
    · exact nomatch hrec
    · obtain ⟨hop, haddr⟩ := FaultRecord.unknownOpcode.inj hrec
      exact ⟨b, hb, hop, haddr, hno⟩
    · exact nomatch hcause
  · rintro ⟨b, hb, rfl, rfl, hno⟩
    obtain ⟨hs, -⟩ := stepWith_next h
    obtain rfl := Host.Outcome.next.inj ((stepWith_unknown hs hb (lookupOpcode_eq_none.2 hno)).symm.trans h)
    rfl

theorem pop_eq_pop_seven {ra : Byte} : Instr.pop ra = .pop 7 ↔ ra.toNat = 7 := by
  rw [Instr.pop.injEq, ← BitVec.toNat_inj]
  rfl

/-- Settles O33: a step's `OutOfBoundsAccess` is fetch's, or has a row of the table for its decoded instruction. -/
theorem outOfBoundsCausesAreComplete : Obligations.OutOfBoundsCausesAreComplete := by
  intro opc s t kind index pc h hf
  obtain ⟨hpc, hrec⟩ | ⟨b, -, -, hrec⟩ | ⟨b, m, hb, hm, hcause⟩ := stepWith_faulted hf h
  · obtain ⟨rfl, rfl, rfl⟩ := FaultRecord.outOfBoundsAccess.inj hrec
    exact ⟨rfl, .inl ⟨hpc, rfl, rfl⟩⟩
  · exact nomatch hrec
  · have hdecode := decodeWith_of_lookupOpcode hm b.opa b.opb
    have hpc : pc = s.pc := by cases hcause <;> rfl
    refine ⟨hpc, .inr ⟨b, _, hb, hdecode, ?_⟩⟩
    rw [assemble_mnemonic]
    cases hcause with
    | firstOperand hm h => exact .inl ⟨rfl, rfl, h, hm⟩
    | secondOperand hm h => exact .inr (.inl ⟨rfl, rfl, h, hm⟩)
    | push hm h => exact .inr (.inr (.inl ⟨rfl, rfl, h, hm⟩))
    | pop h =>
      rw [apply_ite (· = (255 : Byte))] at h
      exact .inr (.inr (.inr (.inl ⟨rfl, rfl, by decide, (if_congr pop_eq_pop_seven rfl rfl).mpr h⟩)))
    | ret h => exact .inr (.inr (.inr (.inl ⟨rfl, rfl, by decide, by rwa [if_neg nofun]⟩)))
    | pcAdvance hm h => exact .inr (.inr (.inr (.inr ⟨rfl, rfl, h, hm⟩)))

end Sys2Proof.Machine

/-! The proofs of the family "reset and hazards": a session before and after its run has begun. -/

namespace Sys2Proof.Machine

section
variable {h : Session}

theorem Session.load_of_begun (hb : h.begun = true) (bytes : List Byte) (origin : Byte) :
    Session.load bytes origin h = .error .outsideHostProtocol :=
  if_pos hb

theorem Session.run_of_begun (hb : h.begun = true) (opc : OpcodeMap) (fuel : Nat) :
    Session.run opc fuel h = .error .outsideHostProtocol :=
  if_pos hb

/-- Before its run a session passes on the machine's `load`, whatever it reports, and stays before its run. -/
theorem Session.load_of_not_begun (hb : h.begun = false) (bytes : List Byte) (origin : Byte) :
    Session.load bytes origin h =
      .ok ((Machine.load bytes origin h.machine).1, ⟨(Machine.load bytes origin h.machine).2, false⟩) := by
  rw [Session.load, if_neg (ne_true_of_eq_false hb), hb]

/-- Before its run a session runs its machine from the memory as it is, whatever the `load`s before it reported (log entry 24). -/
theorem Session.run_of_not_begun (hb : h.begun = false) (opc : OpcodeMap) (fuel : Nat) :
    Session.run opc fuel h = .ok ((runWith opc fuel h.machine).map fun t => ⟨t, true⟩) :=
  if_neg (ne_true_of_eq_false hb)

end

/-- Settles O54: `begun` alone decides whether the session answers; a run that ends sets it and `load` keeps it. -/
theorem sessionRunsOnce : Obligations.SessionRunsOnce :=
  ⟨fun _ hb => ⟨Session.load_of_begun hb, Session.run_of_begun hb⟩,
    fun _ hb => ⟨Session.load_of_not_begun hb, Session.run_of_not_begun hb⟩⟩

end Sys2Proof.Machine

/-! The proofs of the family "other": decoding against encoding, the representation of the state, what each instruction writes when it
completes and raises when it cannot, the step as a whole, instruction pairs, the invariant, `load` and trace, and the frames. -/

namespace Sys2Proof.Machine

/-! ## Decoding and encoding (30_encoding.md R50 to R58) -/

/-- The operand bytes of an instruction, read back from the places the decoder takes them from, assemble to it. -/
theorem assemble_operandBytes (i : Instr) (rest : List Byte) :
    assemble i.mnemonic ((i.operandBytes ++ rest).getD 0 0) ((i.operandBytes ++ rest).getD 1 0) = i := by
  cases i <;> rfl

/-- Of the two operand bytes fetched, an assembled instruction keeps the first ones, as many as it has operands (30_encoding.md R52). -/
theorem operandBytes_assemble (m : Mnemonic) (opa opb : Byte) :
    ∃ rest, [opa, opb] = (assemble m opa opb).operandBytes ++ rest := by
  cases m with
  | hlt | ret => exact ⟨[opa, opb], rfl⟩
  | prn | push | pop | call => exact ⟨[opb], rfl⟩
  | ldi | add | mul => exact ⟨[], rfl⟩

/-- Settles O1: the opcode written selects the mnemonic, and the operand bytes written assemble to the instruction. -/
theorem decodeOfEncodeIsTheInstruction : Obligations.DecodeOfEncodeIsTheInstruction :=
  fun _ i rest hwf =>
    (decodeWith_of_lookupOpcode (lookupOpcode_code hwf i.mnemonic) _ _).trans (congrArg _ (assemble_operandBytes i rest))

/-- Settles O2: the opcode byte is the selected mnemonic's, and the operand bytes are those assembled and a rest. -/
theorem decodedBytesAreTheEncoding : Obligations.DecodedBytesAreTheEncoding := by
  intro opc ir opa opb i h
  obtain ⟨m, hm, rfl⟩ := decodeWith_eq_ok.1 h
  obtain ⟨rest, hrest⟩ := operandBytes_assemble m opa opb
  refine ⟨rest, ?_⟩
  rw [encodeWith, assemble_mnemonic, code_of_lookupOpcode hm, List.cons_append, ← hrest]

/-- Settles O6: the ten default words, evaluated. -/
theorem defaultWordsDecode : Obligations.DefaultWordsDecode := by
  unfold Obligations.DefaultWordsDecode
  decide

/-- A byte is a known opcode exactly when a mnemonic has it. -/
theorem lookupOpcode_isSome {opc : OpcodeMap} {ir : Byte} : (lookupOpcode opc ir).isSome ↔ ∃ m, opc.code m = ir := by
  rw [← Option.ne_none_iff_isSome, ne_eq, lookupOpcode_eq_none]
  push Not
  rfl

/-- The opcode numbers of an injective map, one for each of the nine mnemonics, are distinct. -/
theorem nodup_opcode_numbers {opc : OpcodeMap} (hwf : opc.wf = true) : (Mnemonic.all.map fun m => (opc.code m).toNat).Nodup :=
  List.Nodup.map (fun _ _ h => OpcodeMap.code_injective hwf (BitVec.eq_of_toNat_eq h)) (by decide)

/-- The known byte values are the opcode numbers of the nine mnemonics. -/
theorem filter_lookupOpcode_isSome_perm {opc : OpcodeMap} (hwf : opc.wf = true) :
    ((List.range 256).filter fun n => (lookupOpcode opc (BitVec.ofNat 8 n)).isSome).Perm
      (Mnemonic.all.map fun m => (opc.code m).toNat) := by
  refine (List.perm_ext_iff_of_nodup (List.nodup_range.filter _) (nodup_opcode_numbers hwf)).2 fun n => ?_
  simp only [List.mem_filter, List.mem_range, lookupOpcode_isSome, List.mem_map]
  constructor
  · rintro ⟨hn, m, hm⟩
    exact ⟨m, m.mem_all, by rw [hm, BitVec.toNat_ofNat, Nat.mod_eq_of_lt hn]⟩
  · rintro ⟨m, -, rfl⟩
    exact ⟨(opc.code m).isLt, m, by rw [BitVec.ofNat_toNat, BitVec.setWidth_eq]⟩

/-- Settles O7: of the 256 byte values 9 are known, one for each mnemonic, and the others are not. -/
theorem unknownOpcodesNumber247 : Obligations.UnknownOpcodesNumber247 := by
  intro opc hwf
  have hknown := (filter_lookupOpcode_isSome_perm hwf).length_eq
  have hall := List.length_eq_length_filter_add (l := List.range 256) fun n => (lookupOpcode opc (BitVec.ofNat 8 n)).isSome
  simp only [List.length_map, Mnemonic.all, List.length_cons, List.length_nil] at hknown
  simp only [List.length_range, Option.not_isSome] at hall
  omega

/-! ## Registers, memory, the ALU -/

/-- Settles O8: a read after a write of a register; SP is register 7 by definition. -/
theorem registersAreOneFlatFile : Obligations.RegistersAreOneFlatFile :=
  fun s r q v => ⟨State.reg_setReg s r q v, rfl⟩

/-- In a canonical memory a listed cell is what its address reads. -/
theorem Memory.read_of_mem {m : Memory} (hm : m.wf) {c : Host.Cell} (hc : c ∈ m) : m.read c.1 = c.2 := by
  obtain ⟨hsorted, -⟩ := hm
  induction m with
  | nil => exact nomatch hc
  | cons d m ih =>
    obtain ⟨hlt, hsorted⟩ := List.pairwise_cons.1 hsorted
    rw [Memory.read_cons]
    obtain rfl | hc := List.mem_cons.1 hc
    · exact if_pos rfl
    · rw [if_neg (hlt c hc).ne, ih hc hsorted]

/-- An address that does not read as an unlisted one is listed, with what it reads. -/
theorem Memory.mem_of_read_ne {m : Memory} {a : Nat} (h : m.read a ≠ unlistedByte) : (a, m.read a) ∈ m := by
  induction m with
  | nil => exact absurd rfl h
  | cons d m ih =>
    rw [Memory.read_cons] at h ⊢
    split at h
    · next hd => rw [if_pos hd, ← hd]; exact List.mem_cons_self
    · next hd => rw [if_neg hd]; exact List.mem_cons_of_mem _ (ih h)

/-- A canonical memory lists exactly the cells of the space that do not read as unlisted. -/
theorem Memory.mem_iff_read {m : Memory} (hm : m.wf) (a : Nat) (v : Byte) :
    (a, v) ∈ m ↔ a < Config.memSize ∧ v ≠ unlistedByte ∧ m.read a = v := by
  constructor
  · intro hc
    obtain ⟨ha, hv⟩ := hm.2 _ hc
    exact ⟨ha, hv, Memory.read_of_mem hm hc⟩
  · rintro ⟨-, hv, rfl⟩
    exact Memory.mem_of_read_ne hv

theorem Memory.wf.nodup {m : Memory} (hm : m.wf) : m.Nodup :=
  hm.1.imp fun hlt heq => hlt.ne (congrArg Prod.fst heq)

/-- Settles O11: both list the same cells, those that do not read as unlisted, and both list them in rising order. -/
theorem canonicalMemoryIsExtensional : Obligations.CanonicalMemoryIsExtensional := by
  intro m n hm hn hread
  have hperm : m.Perm n := by
    refine (List.perm_ext_iff_of_nodup hm.nodup hn.nodup).2 fun ⟨a, v⟩ => ?_
    rw [Memory.mem_iff_read hm, Memory.mem_iff_read hn]
    exact and_congr_right fun ha => by rw [hread a ha]
  exact hperm.eq_of_pairwise (fun _ _ _ _ hlt hgt => absurd hgt hlt.asymm) hm.1 hn.1

theorem aluValue_add_toNat (a b : Byte) : (aluValue .add a b).toNat = (a.toNat + b.toNat) % 256 := by
  simp [aluValue]

theorem aluValue_mul_toNat (a b : Byte) : (aluValue .mul a b).toNat = (a.toNat * b.toNat) % 256 := by
  simp [aluValue]

@[simp] theorem alu_reg (op : AluOp) (a b q : RegIdx) (s : State) :
    (alu op a b s).reg q = if q = a then aluValue op (s.reg a) (s.reg b) else s.reg q :=
  State.reg_setReg s a q _

/-- Settles O12: the value of each operation, and the one register that `alu` writes. -/
theorem aluWritesTheValueModulo256 : Obligations.AluWritesTheValueModulo256 := by
  refine ⟨fun a b => ⟨aluValue_add_toNat a b, aluValue_mul_toNat a b⟩, fun op => ?_, fun op a b s => ⟨rfl, ?_, fun q hq => ?_⟩⟩
  · cases op with
    | add => exact .inl rfl
    | mul => exact .inr rfl
  · rw [alu_reg, if_pos rfl]
  · rw [alu_reg, if_neg hq]

/-! ## Reset (10_state.md R21 to R25) -/

/-- After reset SP is `SP_INIT` and every other register 0. -/
theorem State.reg_resetWith (spInit : Byte) (r : RegIdx) : (State.resetWith spInit).reg r = if r = 7 then spInit else 0 := by
  fin_cases r <;> rfl

/-- Settles O13: every field of the reset state, and the default `SP_INIT`. -/
theorem resetState : Obligations.ResetState :=
  ⟨State.reg_resetWith, State.read_resetWith, fun _ => ⟨rfl, rfl, rfl, rfl⟩, rfl⟩

/-- Settles O49: empty memory is canonical, and there is neither a fault nor a record. -/
theorem resetMeetsInv : Obligations.ResetMeetsInv := fun _ => ⟨Memory.wf_nil, rfl⟩

/-! ## Two writes of SP -/

/-- A second write of SP replaces the first. -/
@[simp] theorem State.setSp_setSp (s : State) (v w : Byte) : (s.setSp v).setSp w = s.setSp w := by
  simp [State.setSp, State.setReg]

/-- An operand of 7 names SP (10_state.md R12). -/
theorem State.setSp_setReg_seven {ra : Byte} {s : State} {v w : Byte} (hra : ra.toNat < 8) (h7 : ra.toNat = 7) :
    (s.setReg ⟨ra.toNat, hra⟩ v).setSp w = s.setSp w := by
  have hseven : (⟨ra.toNat, hra⟩ : RegIdx) = Config.spIndex := Fin.ext h7
  rw [hseven]
  exact State.setSp_setSp s v w

/-! ## Instructions that complete: the operand checks and the PC advance answer values, and the writes are committed -/

/-- A one-byte push that does not fault: SP one lower, and `v` in the cell it then points to (43_stack.md R95). -/
def State.pushed (s : State) (v : Byte) : State :=
  { s.setSp (BitVec.ofNat 8 (s.sp.toNat - 1)) with mem := s.mem.write (s.sp.toNat - 1) v }

section
variable {ra rb imm : Byte} {s : State}

/-- The push operation with SP above 0 answers `State.pushed`, with the value read after the decrement (43_stack.md R96). -/
theorem pushByte_eq_pushed (value : State → Byte) (hsp : s.sp.toNat ≠ 0) :
    pushByte value s = .ok (s.pushed (value (s.setSp (BitVec.ofNat 8 (s.sp.toNat - 1))))) := by
  obtain ⟨-, h⟩ | ⟨hzero, -⟩ := pushByte_cases value s
  · exact h
  · exact absurd hzero hsp

theorem execLdi_completes (imm : Byte) (hra : ra.toNat < 8) (hpc : s.pc.toNat + 3 ≤ 255) :
    execLdi ra imm s = .next ((s.setReg ⟨ra.toNat, hra⟩ imm).setPc (BitVec.ofNat 8 (s.pc.toNat + 3))) :=
  calc execLdi ra imm s
    _ = _ := commit_bind_ok (regOperand_ok s hra)
    _ = _ := commit_bind_ok (pcPlus_ok hpc)

theorem execPrn_completes (hra : ra.toNat < 8) (hpc : s.pc.toNat + 2 ≤ 255) :
    execPrn ra s = .next ((s.emit (s.reg ⟨ra.toNat, hra⟩)).setPc (BitVec.ofNat 8 (s.pc.toNat + 2))) :=
  calc execPrn ra s
    _ = _ := commit_bind_ok (regOperand_ok s hra)
    _ = _ := commit_bind_ok (pcPlus_ok hpc)

theorem aluInstruction_completes (op : AluOp) (hra : ra.toNat < 8) (hrb : rb.toNat < 8) (hpc : s.pc.toNat + 3 ≤ 255) :
    aluInstruction op ra rb s =
      .next ((alu op ⟨ra.toNat, hra⟩ ⟨rb.toNat, hrb⟩ s).setPc (BitVec.ofNat 8 (s.pc.toNat + 3))) :=
  calc aluInstruction op ra rb s
    _ = _ := commit_bind_ok (regOperand_ok s hra)
    _ = _ := commit_bind_ok (regOperand_ok s hrb)
    _ = _ := commit_bind_ok (pcPlus_ok hpc)

theorem execPush_completes (hra : ra.toNat < 8) (hsp : s.sp.toNat ≠ 0) (hpc : s.pc.toNat + 2 ≤ 255) :
    execPush ra s = .next ((s.pushed (if ra.toNat = 7 then BitVec.ofNat 8 (s.sp.toNat - 1) else s.x[ra.toNat])).setPc
      (BitVec.ofNat 8 (s.pc.toNat + 2))) := by
  rw [← State.setSp_reg_operand s _ hra]
  calc execPush ra s
    _ = _ := commit_bind_ok (regOperand_ok s hra)
    _ = _ := commit_bind_ok (pushByte_eq_pushed _ hsp)
    _ = _ := commit_bind_ok (pcPlus_ok hpc)

/-- POP increments SP as the popped byte left it: that byte itself for X7 (43_stack.md R97). -/
theorem execPop_completes (hra : ra.toNat < 8)
    (hinc : (if ra.toNat = 7 then s.mem.read s.sp.toNat else s.sp).toNat ≠ 255) (hpc : s.pc.toNat + 2 ≤ 255) :
    execPop ra s = .next (((s.setReg ⟨ra.toNat, hra⟩ (s.mem.read s.sp.toNat)).setSp
      (BitVec.ofNat 8 ((if ra.toNat = 7 then s.mem.read s.sp.toNat else s.sp).toNat + 1))).setPc
        (BitVec.ofNat 8 (s.pc.toNat + 2))) := by
  rw [← State.sp_setReg_operand s _ hra] at hinc ⊢
  calc execPop ra s
    _ = _ := commit_bind_ok (regOperand_ok s hra)
    _ = _ := commit_bind_ok (topByte_ok s)
    _ = _ := commit_bind_ok (incSp_ok hinc)
    _ = _ := commit_bind_ok (pcPlus_ok hpc)

theorem execCall_completes (hra : ra.toNat < 8) (hsp : s.sp.toNat ≠ 0) (hpc : s.pc.toNat + 2 ≤ 255) :
    execCall ra s = .next ((s.pushed (BitVec.ofNat 8 (s.pc.toNat + 2))).setPc
      (if ra.toNat = 7 then BitVec.ofNat 8 (s.sp.toNat - 1) else s.x[ra.toNat])) := by
  rw [← State.setSp_reg_operand s _ hra]
  calc execCall ra s
    _ = _ := commit_bind_ok (regOperand_ok s hra)
    _ = _ := commit_bind_ok (pcPlus_ok hpc)
    _ = _ := commit_bind_ok (pushByte_eq_pushed _ hsp)

theorem execRet_completes (hsp : s.sp.toNat ≠ 255) :
    execRet s = .next ((s.setSp (BitVec.ofNat 8 (s.sp.toNat + 1))).setPc (s.mem.read s.sp.toNat)) :=
  calc execRet s
    _ = _ := commit_bind_ok (topByte_ok s)
    _ = _ := commit_bind_ok (incSp_ok hsp)

end

/-- Settles O17: the state that a completed LDI commits. -/
theorem ldiLoadsTheImmediate : Obligations.LdiLoadsTheImmediate := fun _ imm _ hra hpc => execLdi_completes imm hra hpc

/-- Settles O18: the state that a completed PRN commits. -/
theorem prnEmitsTheRegister : Obligations.PrnEmitsTheRegister := fun _ _ hra hpc => execPrn_completes hra hpc

/-- Settles O19: the ALU with the operation ADD. -/
theorem addWritesTheSumModulo256 : Obligations.AddWritesTheSumModulo256 :=
  fun _ _ _ hra hrb hpc => aluInstruction_completes .add hra hrb hpc

/-- Settles O20: the ALU with the operation MUL. -/
theorem mulWritesTheProductModulo256 : Obligations.MulWritesTheProductModulo256 :=
  fun _ _ _ hra hrb hpc => aluInstruction_completes .mul hra hrb hpc

/-- Settles O21: the state that a completed PUSH commits. -/
theorem pushStoresAtTheDecrementedSp : Obligations.PushStoresAtTheDecrementedSp :=
  fun _ _ hra hsp hpc => execPush_completes hra hsp hpc

/-- Settles O22: for X7 the second write of SP replaces the popped byte, which the increment was applied to. -/
theorem popLoadsFromSp : Obligations.PopLoadsFromSp := by
  refine fun ra s hra hpc => ⟨fun h7 hsp => ?_, fun h7 hpop => ?_⟩
  · have h := execPop_completes hra (by rwa [if_neg h7]) hpc
    rw [if_neg h7] at h
    exact h
  · have h := execPop_completes hra (by rwa [if_pos h7]) hpc
    rw [if_pos h7] at h
    rw [State.setSp_setReg_seven hra h7] at h
    exact h

/-- Settles O23: the state that a completed CALL commits. -/
theorem callPushesTheReturnAddress : Obligations.CallPushesTheReturnAddress :=
  fun _ _ hra hsp hpc => execCall_completes hra hsp hpc

/-- Settles O24: the state that a completed RET commits. -/
theorem retPopsThePc : Obligations.RetPopsThePc := fun _ hsp => execRet_completes hsp

/-- Settles O25: HLT by definition. -/
theorem hltHalts : Obligations.HltHalts := fun _ => rfl

/-! ## Instructions that cannot complete: the first operation that raises decides the fault -/

section
variable {ra rb imm : Byte} {s : State} {f : FaultRecord}

theorem execLdi_pcPlus_error (imm : Byte) (hra : ra.toNat < 8) (h : pcPlus 3 s.pc = .error f) :
    execLdi ra imm s = .next (enterFault f s) :=
  (commit_bind_ok (regOperand_ok s hra)).trans (commit_bind_error h)

theorem execPrn_pcPlus_error (hra : ra.toNat < 8) (h : pcPlus 2 s.pc = .error f) :
    execPrn ra s = .next (enterFault f s) :=
  (commit_bind_ok (regOperand_ok s hra)).trans (commit_bind_error h)

theorem aluInstruction_pcPlus_error (op : AluOp) (hra : ra.toNat < 8) (hrb : rb.toNat < 8) (h : pcPlus 3 s.pc = .error f) :
    aluInstruction op ra rb s = .next (enterFault f s) :=
  calc aluInstruction op ra rb s
    _ = _ := commit_bind_ok (regOperand_ok s hra)
    _ = _ := commit_bind_ok (regOperand_ok s hrb)
    _ = _ := commit_bind_error h

/-- PUSH checks the stack before the PC advance (40_execution_cycle.md R74). -/
theorem execPush_pushAddress_error (hra : ra.toNat < 8) (h : pushAddress s = .error f) :
    execPush ra s = .next (enterFault f s) :=
  (commit_bind_ok (regOperand_ok s hra)).trans (commit_bind_error (pushByte_error h))

theorem execPush_pcPlus_error (hra : ra.toNat < 8) (hsp : s.sp.toNat ≠ 0) (h : pcPlus 2 s.pc = .error f) :
    execPush ra s = .next (enterFault f s) :=
  calc execPush ra s
    _ = _ := commit_bind_ok (regOperand_ok s hra)
    _ = _ := commit_bind_ok (pushByte_eq_pushed _ hsp)
    _ = _ := commit_bind_error h

theorem execPop_pcPlus_error (hra : ra.toNat < 8)
    (hinc : (if ra.toNat = 7 then s.mem.read s.sp.toNat else s.sp).toNat ≠ 255) (h : pcPlus 2 s.pc = .error f) :
    execPop ra s = .next (enterFault f s) := by
  rw [← State.sp_setReg_operand s _ hra] at hinc
  calc execPop ra s
    _ = _ := commit_bind_ok (regOperand_ok s hra)
    _ = _ := commit_bind_ok (topByte_ok s)
    _ = _ := commit_bind_ok (incSp_ok hinc)
    _ = _ := commit_bind_error h

theorem execCall_pcPlus_error (hra : ra.toNat < 8) (h : pcPlus 2 s.pc = .error f) :
    execCall ra s = .next (enterFault f s) :=
  (commit_bind_ok (regOperand_ok s hra)).trans (commit_bind_error h)

/-- CALL computes its return address before it checks the stack (44_subroutine.md R100). -/
theorem execCall_pushAddress_error (hra : ra.toNat < 8) (hpc : s.pc.toNat + 2 ≤ 255) (h : pushAddress s = .error f) :
    execCall ra s = .next (enterFault f s) :=
  calc execCall ra s
    _ = _ := commit_bind_ok (regOperand_ok s hra)
    _ = _ := commit_bind_ok (pcPlus_ok hpc)
    _ = _ := commit_bind_error (pushByte_error h)

end

/-- Settles O27: after the operand checks the PC advance by 3 raises. -/
theorem pcAdvancePast255Faults : Obligations.PcAdvancePast255Faults := by
  intro ra rb imm s hra hrb hpc
  have hadvance := pcPlus_error hpc
  simp only [List.forall_mem_cons]
  exact ⟨execLdi_pcPlus_error imm hra hadvance, aluInstruction_pcPlus_error .add hra hrb hadvance,
    aluInstruction_pcPlus_error .mul hra hrb hadvance, nofun⟩

/-- Settles O28: after the operand check, and CALL's return address, the push raises. -/
theorem pushWithSpZeroFaults : Obligations.PushWithSpZeroFaults := by
  intro ra s hra hsp hpc
  have haddress := pushAddress_error hsp
  simp only [List.forall_mem_cons]
  exact ⟨execPush_pushAddress_error hra haddress, execCall_pushAddress_error hra hpc haddress, nofun⟩

/-- Settles O30: the advance by 2 raises, in PUSH and POP after their stack access. -/
theorem twoByteAdvancePast255Faults : Obligations.TwoByteAdvancePast255Faults := by
  intro ra s hra hpc
  have hadvance : pcPlus 2 s.pc = .error (.outOfBoundsAccess .mem (s.pc.toNat + 2) s.pc) := pcPlus_error (by omega)
  refine ⟨?_, fun hsp => execPush_pcPlus_error hra hsp hadvance, fun hinc => ?_⟩
  · simp only [List.forall_mem_cons]
    exact ⟨execPrn_pcPlus_error hra hadvance, execCall_pcPlus_error hra hadvance, nofun⟩
  · rw [← apply_ite BitVec.toNat] at hinc
    exact execPop_pcPlus_error hra hinc hadvance

/-- Settles O31: the fetch raises before any byte is looked at. -/
theorem fetchPastTheTopFaults : Obligations.FetchPastTheTopFaults :=
  fun _ _ hs hpc => stepWith_fetch_error hs (fetch_error (by omega))

/-! ## The step as a whole -/

section
variable {opc : OpcodeMap} {s t : State}

theorem stepWith_halted (h : s.status = .halted) : stepWith opc s = .fault .runHalted := by
  simp [stepWith, h]

theorem stepWith_of_faulted {f : FaultRecord} (h : s.status = .faulted f) : stepWith opc s = .fault (.runFaulted f) := by
  simp [stepWith, h]

theorem assemble_eq_hlt {m : Mnemonic} {opa opb : Byte} : assemble m opa opb = .hlt ↔ m = .hlt := by
  cases m <;> simp [assemble]

/-- A step that answers a next state entered a fault, halted at HLT's opcode, or left the machine running with no new record. -/
theorem stepWith_next_status (h : stepWith opc s = .next t) :
    (∃ f, t = enterFault f s) ∨
      (∃ b, fetch s = .ok b ∧ lookupOpcode opc b.ir = some .hlt ∧ t = { s with status := .halted }) ∨
      (t.status = .running ∧ t.diag = s.diag) := by
  obtain ⟨hs, ⟨f, -, rfl⟩ | ⟨b, -, -, rfl⟩ | ⟨b, m, hb, hm, hexec⟩⟩ := stepWith_next h
  · exact .inl ⟨f, rfl⟩
  · exact .inl ⟨_, rfl⟩
  · obtain hfault | ⟨hhlt, rfl⟩ | ⟨-, hst, hdiag⟩ := exec_next_status hexec
    · exact .inl hfault
    · exact .inr (.inl ⟨b, hb, assemble_eq_hlt.1 hhlt ▸ hm, rfl⟩)
    · exact .inr (.inr ⟨hst.trans hs, hdiag⟩)

end

/-- Settles O34: each fault of a step is an `UnknownOpcode` or an `OutOfBoundsAccess`. -/
theorem unsupportedAluIsUnreachable : Obligations.UnsupportedAluIsUnreachable := by
  intro opc s t h hf
  obtain ⟨-, hrec⟩ | ⟨b, -, -, hrec⟩ | ⟨b, m, -, -, hcause⟩ := stepWith_faulted hf h
  · exact nomatch hrec
  · exact nomatch hrec
  · exact nomatch hcause

/-- Settles O35: of what a step can do, only fault entry makes the status FAULTED. -/
theorem faultEntryIsPrecise : Obligations.FaultEntryIsPrecise := by
  intro opc s t f h hf
  obtain ⟨g, rfl⟩ | ⟨b, -, -, rfl⟩ | ⟨hrun, -⟩ := stepWith_next_status h
  · obtain rfl := Status.faulted.inj hf
    rfl
  · exact nomatch hf
  · exact nomatch hrun.symm.trans hf

/-- Settles O36: the three bytes are those fetched, and a decoded instruction comes from a known opcode. -/
theorem stepRunsTheDecodedInstruction : Obligations.StepRunsTheDecodedInstruction := by
  intro opc s i hs hpc hi
  obtain ⟨m, hm, rfl⟩ := decodeWith_eq_ok.1 hi
  exact stepWith_exec hs (fetch_ok hpc) hm

/-- Settles O37: a running machine has a next state, and each way to one has its outcome. -/
theorem runningStepHasANextState : Obligations.RunningStepHasANextState := by
  intro opc s hs
  obtain ⟨t, h⟩ := stepWith_exists_next (opc := opc) hs
  refine ⟨t, h, ?_⟩
  obtain ⟨f, rfl⟩ | ⟨b, -, -, rfl⟩ | ⟨hrun, -⟩ := stepWith_next_status h
  · exact .inr (.inr ⟨f, enterFault_status s f, List.mem_append_right _ List.mem_cons_self⟩)
  · exact .inr (.inl rfl)
  · exact .inl hrun

/-- Settles O38: the step of an ended run, by its status. -/
theorem endedRunHasNoStep : Obligations.EndedRunHasNoStep :=
  fun _ _ => ⟨stepWith_halted, fun _ => stepWith_of_faulted⟩

/-- Settles O39: only a step that found HLT's opcode halts; one that fetched it found it, the map being injective. -/
theorem onlyHltHalts : Obligations.OnlyHltHalts := by
  refine fun opc s t hwf h => ⟨fun hhalted => ?_, ?_⟩
  · obtain ⟨f, rfl⟩ | ⟨b, hb, hm, rfl⟩ | ⟨hrun, -⟩ := stepWith_next_status h
    · exact nomatch hhalted
    · exact ⟨b, hb, (code_of_lookupOpcode hm).symm⟩
    · exact nomatch hrun.symm.trans hhalted
  · rintro ⟨b, hb, hir⟩
    obtain ⟨hs, -⟩ := stepWith_next h
    have hlookup : lookupOpcode opc b.ir = some .hlt := hir ▸ lookupOpcode_code hwf .hlt
    obtain rfl := execHlt_next.1 ((stepWith_exec hs hb hlookup).symm.trans h)
    rfl

/-! ## Pairs of instructions -/

section
variable {ra rb imm : Byte} {s : State}

/-- A number that fits a byte is the byte's value. -/
theorem toNat_ofNat_of_le {n : Nat} (h : n ≤ 255) : (BitVec.ofNat 8 n).toNat = n := by
  rw [BitVec.toNat_ofNat, Nat.mod_eq_of_lt (by omega)]

/-- An ALU instruction and a PRN of its first register append the value computed (42_alu.md R93). -/
theorem alu_then_prn (op : AluOp) (hra : ra.toNat < 8) (hrb : rb.toNat < 8) (hpc : s.pc.toNat + 5 ≤ 255) :
    ∃ t u, aluInstruction op ra rb s = .next t ∧ execPrn ra t = .next u ∧
      u.output = s.output ++ [aluValue op s.x[ra.toNat] s.x[rb.toNat]] := by
  refine ⟨_, _, aluInstruction_completes op hra hrb (by omega), execPrn_completes hra ?_, ?_⟩
  · rw [State.setPc_pc, toNat_ofNat_of_le (by omega)]
    omega
  · rw [State.setPc_output, State.emit_output, State.setPc_reg, alu_reg, if_pos rfl]
    rfl

/-! ### After a push -/

theorem State.pushed_x (s : State) (v : Byte) : (s.pushed v).x = s.x.set 7 (BitVec.ofNat 8 (s.sp.toNat - 1)) := rfl

theorem State.pushed_sp (s : State) (v : Byte) : (s.pushed v).sp = BitVec.ofNat 8 (s.sp.toNat - 1) :=
  State.sp_setSp s _

/-- The decremented SP, as a number. -/
theorem State.pushed_sp_toNat (s : State) (v : Byte) : (s.pushed v).sp.toNat = s.sp.toNat - 1 := by
  have hlt := s.sp.isLt
  rw [State.pushed_sp, toNat_ofNat_of_le (by omega)]

/-- The byte on top of the stack after a push is the byte pushed. -/
@[simp] theorem State.read_pushed_sp (s : State) (v : Byte) : (s.pushed v).mem.read (s.pushed v).sp.toNat = v := by
  rw [State.pushed_sp_toNat]
  exact (Memory.read_write ..).trans (if_pos rfl)

/-- Incrementing the decremented SP restores it. -/
theorem incremented_of_decremented {a b : Byte} (ha : a.toNat ≠ 0) (hb : b.toNat = a.toNat - 1) :
    BitVec.ofNat 8 (b.toNat + 1) = a := by
  rw [hb, Nat.sub_add_cancel (by omega), BitVec.ofNat_toNat, BitVec.setWidth_eq]

/-- Writing the old SP back after a push restores every register. -/
theorem State.pushed_x_set_sp (s : State) (v : Byte) : (s.pushed v).x.set 7 s.sp = s.x := by
  rw [State.pushed_x, Vector.set_set]
  exact Vector.set_getElem_self _

/-- The SP that a pop right after a push leaves is the one before the push. -/
theorem State.pushed_sp_incremented (v : Byte) (hsp : s.sp.toNat ≠ 0) :
    BitVec.ofNat 8 ((s.pushed v).sp.toNat + 1) = s.sp :=
  incremented_of_decremented hsp (State.pushed_sp_toNat s v)

/-- Right after a push, POP of X0 to X6 moves the byte pushed and restores SP. -/
theorem execPop_after_push {npc v : Byte} (hsp : s.sp.toNat ≠ 0) (hnpc : npc.toNat + 2 ≤ 255) (hrb : rb.toNat < 7) :
    ∃ u, execPop rb ((s.pushed v).setPc npc) = .next u ∧ u.x = s.x.set rb.toNat v ∧ u.pc.toNat = npc.toNat + 2 := by
  have h7 : rb.toNat ≠ 7 := hrb.ne
  have hlt := s.sp.isLt
  have hdec := State.pushed_sp_toNat s v
  refine ⟨_, execPop_completes (by omega) ?_ hnpc, ?_, toNat_ofNat_of_le hnpc⟩
  · rw [if_neg h7, State.setPc_sp]
    omega
  · simp only [if_neg h7, State.setPc_x, State.setPc_sp, State.setPc_mem, State.read_pushed_sp,
      State.pushed_sp_incremented v hsp, State.setSp_x, State.setReg_x]
    exact (Vector.set_comm _ _ h7).trans (congrArg (Vector.set · rb.toNat v) (State.pushed_x_set_sp s v))

/-- Right after a push of the decremented SP, POP X7 increments it back. -/
theorem execPop_seven_after_push {npc : Byte} (hsp : s.sp.toNat ≠ 0) (hnpc : npc.toNat + 2 ≤ 255) (h7 : rb.toNat = 7) :
    ∃ u, execPop rb ((s.pushed (BitVec.ofNat 8 (s.sp.toNat - 1))).setPc npc) = .next u ∧ u.x = s.x ∧
      u.pc.toNat = npc.toNat + 2 := by
  have hlt := s.sp.isLt
  have hdec : (BitVec.ofNat 8 (s.sp.toNat - 1)).toNat = s.sp.toNat - 1 := toNat_ofNat_of_le (by omega)
  refine ⟨_, execPop_completes (by omega) ?_ hnpc, ?_, toNat_ofNat_of_le hnpc⟩
  · rw [if_pos h7, State.setPc_mem, State.setPc_sp, State.read_pushed_sp]
    omega
  · rw [State.setSp_setReg_seven _ h7, if_pos h7, State.setPc_mem, State.setPc_sp, State.read_pushed_sp,
      incremented_of_decremented hsp hdec]
    exact State.pushed_x_set_sp s (BitVec.ofNat 8 (s.sp.toNat - 1))

/-- A RET whose SP is the one a push left, with the byte pushed still there, jumps to that byte and restores SP (44_subroutine.md R101). -/
theorem execRet_after_push {u : State} {v : Byte} (hsp : s.sp.toNat ≠ 0) (husp : u.sp = (s.pushed v).sp)
    (hread : u.mem.read u.sp.toNat = v) : execRet u = .next ((u.setSp s.sp).setPc v) := by
  have hlt := s.sp.isLt
  have hdec := State.pushed_sp_toNat s v
  rw [execRet_completes (by rw [husp]; omega), hread, husp, State.pushed_sp_incremented v hsp]

end

/-- Settles O43: ADD, then PRN; MUL, then PRN. -/
theorem aluThenPrnPrintsTheResult : Obligations.AluThenPrnPrintsTheResult :=
  fun _ _ _ hra hrb hpc => ⟨alu_then_prn .add hra hrb hpc, alu_then_prn .mul hra hrb hpc⟩

/-- Settles O44: POP right after the push, of X0 to X6 and of X7. -/
theorem pushThenPopRestoresSp : Obligations.PushThenPopRestoresSp := by
  intro s hsp hpc
  have hnpc : (BitVec.ofNat 8 (s.pc.toNat + 2)).toNat = s.pc.toNat + 2 := toNat_ofNat_of_le (by omega)
  refine ⟨fun ra rb hra hrb => ?_, ?_⟩
  · have hpush := execPush_completes (ra := ra) (by omega) hsp (by omega)
    rw [if_neg hra.ne] at hpush
    obtain ⟨u, hpop, hx, hupc⟩ := execPop_after_push hsp (by rw [hnpc]; omega) hrb
    exact ⟨_, u, hpush, hpop, hx, by omega⟩
  · have hpush := execPush_completes (ra := 7) (by decide) hsp (by omega)
    rw [if_pos (by decide)] at hpush
    obtain ⟨u, hpop, hx, hupc⟩ := execPop_seven_after_push (rb := 7) hsp (by rw [hnpc]; omega) (by decide)
    exact ⟨_, u, hpush, hpop, hx, by omega⟩

/-- Settles O45: the byte CALL pushed is its return address. -/
theorem callThenRetReturnsAfterTheCall : Obligations.CallThenRetReturnsAfterTheCall := by
  intro ra s t u hra hsp hpc hcall husp hread
  obtain rfl := Host.Outcome.next.inj ((execCall_completes hra hsp hpc).symm.trans hcall)
  rw [State.setPc_sp] at husp hread
  refine ⟨_, execRet_after_push hsp husp (hread.trans (State.read_pushed_sp s _)), toNat_ofNat_of_le (by omega), ?_⟩
  rw [State.setPc_sp, State.sp_setSp]

/-- Settles O46: RET pops the register's byte that PUSH has just stored. -/
theorem pushThenRetJumps : Obligations.PushThenRetJumps := by
  intro ra s hra hsp hpc
  have hpush := execPush_completes (ra := ra) (by omega) hsp hpc
  rw [if_neg hra.ne] at hpush
  have hret := execRet_after_push (u := (s.pushed s.x[ra.toNat]).setPc (BitVec.ofNat 8 (s.pc.toNat + 2))) hsp
    (State.setPc_sp ..) (State.read_pushed_sp s _)
  exact ⟨_, _, hpush, hret, rfl, State.pushed_x_set_sp s s.x[ra.toNat]⟩

/-- Settles O47: the second LDI writes to the register what it already holds. -/
theorem ldiIsIdempotent : Obligations.LdiIsIdempotent := by
  intro ra imm s hra hpc
  have hnpc : (BitVec.ofNat 8 (s.pc.toNat + 3)).toNat = s.pc.toNat + 3 := toNat_ofNat_of_le (by omega)
  refine ⟨_, _, execLdi_completes imm hra (by omega), execLdi_completes imm hra ?_, ?_, ?_, rfl, rfl, rfl, rfl, rfl, ?_⟩
  · rw [State.setPc_pc]
    omega
  · exact Vector.getElem_set_self ..
  · exact Vector.set_set _ hra
  · rw [State.setPc_pc, State.setPc_pc, toNat_ofNat_of_le (by omega)]
    omega

/-! ## What an instruction that answers a next state can have written -/

section
variable {ra rb imm : Byte} {i : Instr} {s t : State}

/-- A push that answers a state moved SP to the push address and stored one byte there. -/
theorem pushByte_eq_ok {value : State → Byte} (h : pushByte value s = .ok t) :
    ∃ a v, pushAddress s = .ok a ∧ t = { s.setSp a with mem := s.mem.write a.toNat v } := by
  cases ha : pushAddress s with
  | ok a => exact ⟨a, _, rfl, Except.ok.inj (h.symm.trans (pushByte_ok ha))⟩
  | error f => exact nomatch h.symm.trans (pushByte_error ha)

/-- An increment of SP that answers a state wrote SP alone. -/
theorem incSp_eq_ok (h : incSp s = .ok t) : ∃ w, t = s.setSp w := by
  obtain ⟨-, e⟩ | ⟨-, e⟩ := incSp_cases s
  · exact ⟨_, Except.ok.inj (h.symm.trans e)⟩
  · exact nomatch h.symm.trans e

theorem execLdi_next_setReg (h : execLdi ra imm s = .next t) :
    (∃ f, t = enterFault f s) ∨ ∃ (hra : ra.toNat < 8) (v npc : Byte), t = (s.setReg ⟨ra.toNat, hra⟩ v).setPc npc := by
  obtain ⟨f, -, e⟩ | ⟨r, hr, ⟨f, -, e⟩ | ⟨npc, -, e⟩⟩ := execLdi_next h
  · exact .inl ⟨f, e⟩
  · exact .inl ⟨f, e⟩
  · obtain ⟨hra, rfl⟩ := regOperand_eq_ok hr
    exact .inr ⟨hra, imm, npc, e⟩

theorem aluInstruction_next_setReg {op : AluOp} (h : aluInstruction op ra rb s = .next t) :
    (∃ f, t = enterFault f s) ∨ ∃ (hra : ra.toNat < 8) (v npc : Byte), t = (s.setReg ⟨ra.toNat, hra⟩ v).setPc npc := by
  obtain ⟨f, -, e⟩ | ⟨a, ha, ⟨f, -, e⟩ | ⟨b, -, ⟨f, -, e⟩ | ⟨npc, -, e⟩⟩⟩ := aluInstruction_next h
  · exact .inl ⟨f, e⟩
  · exact .inl ⟨f, e⟩
  · exact .inl ⟨f, e⟩
  · obtain ⟨hra, rfl⟩ := regOperand_eq_ok ha
    exact .inr ⟨hra, _, npc, e⟩

/-- LDI, ADD and MUL write the register that `ra` names and the PC. -/
theorem exec_ldi_add_mul_next (hi : i ∈ [Instr.ldi ra imm, .add ra rb, .mul ra rb]) (h : exec i s = .next t) :
    (∃ f, t = enterFault f s) ∨ ∃ (hra : ra.toNat < 8) (v npc : Byte), t = (s.setReg ⟨ra.toNat, hra⟩ v).setPc npc := by
  simp only [List.mem_cons, List.not_mem_nil, or_false] at hi
  obtain rfl | rfl | rfl := hi
  · exact execLdi_next_setReg h
  · exact aluInstruction_next_setReg h
  · exact aluInstruction_next_setReg h

/-- PRN appends the register's byte to the output and writes the PC. -/
theorem execPrn_next_emit (h : execPrn ra s = .next t) :
    (∃ f, t = enterFault f s) ∨ ∃ (_ : ra.toNat < 8) (npc : Byte), t = (s.emit s.x[ra.toNat]).setPc npc := by
  obtain ⟨f, -, e⟩ | ⟨r, hr, ⟨f, -, e⟩ | ⟨npc, -, e⟩⟩ := execPrn_next h
  · exact .inl ⟨f, e⟩
  · exact .inl ⟨f, e⟩
  · obtain ⟨hra, rfl⟩ := regOperand_eq_ok hr
    exact .inr ⟨hra, npc, e⟩

/-- PUSH and CALL write SP, the cell at the push address and the PC. -/
theorem exec_push_call_next (hi : i ∈ [Instr.push ra, .call ra]) (h : exec i s = .next t) :
    (∃ f, t = enterFault f s) ∨
      ∃ a v npc, pushAddress s = .ok a ∧ t = { s.setSp a with mem := s.mem.write a.toNat v, pc := npc } := by
  simp only [List.mem_cons, List.not_mem_nil, or_false] at hi
  obtain rfl | rfl := hi
  · obtain ⟨f, -, e⟩ | ⟨r, -, ⟨f, -, e⟩ | ⟨s1, hs1, ⟨f, -, e⟩ | ⟨npc, -, e⟩⟩⟩ := execPush_next h
    · exact .inl ⟨f, e⟩
    · exact .inl ⟨f, e⟩
    · exact .inl ⟨f, e⟩
    · obtain ⟨a, v, ha, rfl⟩ := pushByte_eq_ok hs1
      exact .inr ⟨a, v, npc, ha, e⟩
  · obtain ⟨f, -, e⟩ | ⟨r, -, ⟨f, -, e⟩ | ⟨back, -, ⟨f, -, e⟩ | ⟨s1, hs1, e⟩⟩⟩ := execCall_next h
    · exact .inl ⟨f, e⟩
    · exact .inl ⟨f, e⟩
    · exact .inl ⟨f, e⟩
    · obtain ⟨a, v, ha, rfl⟩ := pushByte_eq_ok hs1
      exact .inr ⟨a, v, _, ha, e⟩

/-- POP writes the register that `ra` names, SP and the PC. -/
theorem execPop_next_setSp (h : execPop ra s = .next t) :
    (∃ f, t = enterFault f s) ∨
      ∃ (hra : ra.toNat < 8) (v w npc : Byte), t = ((s.setReg ⟨ra.toNat, hra⟩ v).setSp w).setPc npc := by
  obtain ⟨f, -, e⟩ | ⟨r, hr, ⟨f, -, e⟩ | ⟨s1, hs1, ⟨f, -, e⟩ | ⟨npc, -, e⟩⟩⟩ := execPop_next h
  · exact .inl ⟨f, e⟩
  · exact .inl ⟨f, e⟩
  · exact .inl ⟨f, e⟩
  · obtain ⟨hra, rfl⟩ := regOperand_eq_ok hr
    obtain ⟨w, rfl⟩ := incSp_eq_ok hs1
    exact .inr ⟨hra, _, w, npc, e⟩

/-- RET writes SP and the PC. -/
theorem execRet_next_setSp (h : execRet s = .next t) :
    (∃ f, t = enterFault f s) ∨ ∃ w npc : Byte, t = (s.setSp w).setPc npc := by
  obtain ⟨f, -, e⟩ | ⟨s1, hs1, e⟩ := execRet_next h
  · exact .inl ⟨f, e⟩
  · obtain ⟨w, rfl⟩ := incSp_eq_ok hs1
    exact .inr ⟨w, _, e⟩

end

/-! ## Frames -/

/-- A write of SP leaves the other registers. -/
theorem State.reg_setSp_of_ne (s : State) (v : Byte) {r : RegIdx} (hr : r ≠ 7) : (s.setSp v).reg r = s.reg r :=
  (State.reg_setSp s r v).trans (if_neg hr)

/-- Settles O56: from what LDI, ADD and MUL can have written. -/
theorem ldiAddMulFrame : Obligations.LdiAddMulFrame := by
  intro ra rb imm s t i hi h
  obtain ⟨f, rfl⟩ | ⟨hra, v, npc, rfl⟩ := exec_ldi_add_mul_next hi h
  · exact ⟨fun _ _ => rfl, fun _ => rfl, rfl, .inr ⟨f, rfl, rfl, rfl⟩⟩
  · refine ⟨fun r hr => ?_, fun _ => rfl, rfl, .inl ⟨rfl, rfl⟩⟩
    rw [State.setPc_reg, State.reg_setReg, if_neg (Fin.ne_of_val_ne hr)]

/-- Settles O58: from what PUSH and CALL can have written; with no push address they can only have faulted. -/
theorem pushCallFrame : Obligations.PushCallFrame := by
  intro ra s t i hi h
  obtain ⟨f, rfl⟩ | ⟨a, v, npc, ha, rfl⟩ := exec_push_call_next hi h
  · exact ⟨fun _ _ => rfl, fun _ _ _ _ => rfl, fun _ _ _ => rfl, rfl, .inr ⟨f, rfl, rfl, rfl, fun _ => rfl⟩⟩
  · refine ⟨fun r hr => State.reg_setSp_of_ne s a hr, fun a' ha' b hb => ?_, fun f hf => ?_, rfl,
      .inl ⟨rfl, rfl⟩⟩
    · obtain rfl := Except.ok.inj (ha.symm.trans ha')
      exact (Memory.read_write ..).trans (if_neg hb)
    · exact nomatch ha.symm.trans hf

/-- Settles O59: from what POP and RET can have written. -/
theorem popRetFrame : Obligations.PopRetFrame := by
  refine fun ra s t => ⟨fun h r hra h7 => ?_, fun h r h7 => ?_, ?_⟩
  · obtain ⟨f, rfl⟩ | ⟨_, v, w, npc, rfl⟩ := execPop_next_setSp h
    · rfl
    · rw [State.setPc_reg, State.reg_setSp_of_ne _ _ h7, State.reg_setReg, if_neg (Fin.ne_of_val_ne hra)]
  · obtain ⟨f, rfl⟩ | ⟨w, npc, rfl⟩ := execRet_next_setSp h
    · rfl
    · rw [State.setPc_reg, State.reg_setSp_of_ne _ _ h7]
  · simp only [List.forall_mem_cons]
    refine ⟨fun h => ?_, fun h => ?_, nofun⟩
    · obtain ⟨f, rfl⟩ | ⟨_, v, w, npc, rfl⟩ := execPop_next_setSp h
      · exact ⟨fun _ => rfl, rfl, .inr ⟨f, rfl, rfl, rfl⟩⟩
      · exact ⟨fun _ => rfl, rfl, .inl ⟨rfl, rfl⟩⟩
    · obtain ⟨f, rfl⟩ | ⟨w, npc, rfl⟩ := execRet_next_setSp h
      · exact ⟨fun _ => rfl, rfl, .inr ⟨f, rfl, rfl, rfl⟩⟩
      · exact ⟨fun _ => rfl, rfl, .inl ⟨rfl, rfl⟩⟩

/-! ## The output stream -/

/-- An instruction leaves the output stream alone, or it is PRN of a legal register, whose byte it appended (10_state.md R20). -/
theorem exec_assemble_output {m : Mnemonic} {opa opb : Byte} {s t : State} (h : exec (assemble m opa opb) s = .next t) :
    t.output = s.output ∨ (m = .prn ∧ ∃ _ : opa.toNat < 8, t.output = s.output ++ [s.x[opa.toNat]]) := by
  cases m with
  | hlt =>
    obtain rfl := execHlt_next.1 h
    exact .inl rfl
  | prn =>
    obtain ⟨f, rfl⟩ | ⟨hopa, npc, rfl⟩ := execPrn_next_emit h
    · exact .inl rfl
    · exact .inr ⟨rfl, hopa, rfl⟩
  | ldi =>
    obtain ⟨f, rfl⟩ | ⟨_, v, npc, rfl⟩ := execLdi_next_setReg h
    · exact .inl rfl
    · exact .inl rfl
  | add | mul =>
    obtain ⟨f, rfl⟩ | ⟨_, v, npc, rfl⟩ := aluInstruction_next_setReg h
    · exact .inl rfl
    · exact .inl rfl
  | push | call =>
    obtain ⟨f, rfl⟩ | ⟨a, v, npc, -, rfl⟩ := exec_push_call_next (ra := opa) (by simp [assemble]) h
    · exact .inl rfl
    · exact .inl rfl
  | pop =>
    obtain ⟨f, rfl⟩ | ⟨_, v, w, npc, rfl⟩ := execPop_next_setSp h
    · exact .inl rfl
    · exact .inl rfl
  | ret =>
    obtain ⟨f, rfl⟩ | ⟨w, npc, rfl⟩ := execRet_next_setSp h
    · exact .inl rfl
    · exact .inl rfl

/-- Settles O40: fault entry writes no output, and of the instructions PRN alone does. -/
theorem outputGrowsOnlyByPrn : Obligations.OutputGrowsOnlyByPrn := by
  intro opc s t h
  obtain ⟨-, ⟨f, -, rfl⟩ | ⟨b, -, -, rfl⟩ | ⟨b, m, hb, hm, hexec⟩⟩ := stepWith_next h
  · exact .inl rfl
  · exact .inl rfl
  · obtain hkept | ⟨rfl, hopa, hout⟩ := exec_assemble_output hexec
    · exact .inl hkept
    · exact .inr ⟨b, hopa, hb, decodeWith_of_lookupOpcode hm b.opa b.opb, hout⟩

/-! ## The invariant -/

/-- An instruction keeps memory canonical: those that store write one cell of the space (20_memory.md R30). -/
theorem exec_mem_wf {i : Instr} {s t : State} (hmem : s.mem.wf) (h : exec i s = .next t) : t.mem.wf := by
  obtain hkept | ⟨ra, hi⟩ := exec_mem_or_push_or_call h
  · rwa [hkept]
  · obtain ⟨f, rfl⟩ | ⟨a, v, npc, -, rfl⟩ := exec_push_call_next (by simpa using hi) h
    · exact hmem
    · exact Memory.wf_write hmem a.isLt v

theorem stepWith_mem_wf {opc : OpcodeMap} {s t : State} (hmem : s.mem.wf) (h : stepWith opc s = .next t) : t.mem.wf := by
  obtain ⟨-, ⟨f, -, rfl⟩ | ⟨b, -, -, rfl⟩ | ⟨b, m, -, -, hexec⟩⟩ := stepWith_next h
  · exact hmem
  · exact hmem
  · exact exec_mem_wf hmem hexec

/-- A running machine has no record, a step that faults appends the one its status names, and no other step appends any. -/
theorem stepWith_diagMatchesStatus {opc : OpcodeMap} {s t : State} (hdiag : s.diagMatchesStatus)
    (h : stepWith opc s = .next t) : t.diagMatchesStatus := by
  obtain ⟨hs, -⟩ := stepWith_next h
  have hempty : s.diag = [] := by rwa [State.diagMatchesStatus, hs] at hdiag
  obtain ⟨f, rfl⟩ | ⟨b, -, -, rfl⟩ | ⟨hrun, hkept⟩ := stepWith_next_status h
  · rw [State.diagMatchesStatus, enterFault_status, enterFault_diag, hempty, List.nil_append]
  · exact hempty
  · rw [State.diagMatchesStatus, hrun, hkept, hempty]

/-- Settles O48: both parts of the invariant, each kept by every step. -/
theorem stepKeepsInv : Obligations.StepKeepsInv :=
  fun _ _ _ hinv h => ⟨stepWith_mem_wf hinv.mem_wf h, stepWith_diagMatchesStatus hinv.diag_status h⟩

/-! ## `load` and trace -/

section
variable {bytes : List Byte} {origin : Byte} {s : State}

theorem load_nil (origin : Byte) (s : State) : load [] origin s = (.emptyProgram, s) := if_pos rfl

/-- `load` of more bytes than fit (20_memory.md R45). -/
theorem load_of_too_large (s : State) (h : Config.memSize < origin.toNat + bytes.length) :
    load bytes origin s = (.programTooLarge, s) := by
  have hlt := origin.isLt
  have hne : bytes ≠ [] := by
    rintro rfl
    simp only [Config.memSize, List.length_nil] at h
    omega
  rw [load, if_neg hne, if_neg (by omega)]

/-- `load` keeps memory canonical: bytes that fit are written to cells of the space, and no others are. -/
theorem load_mem_wf (bytes : List Byte) (origin : Byte) (hmem : s.mem.wf) : (load bytes origin s).2.mem.wf := by
  by_cases hne : bytes = []
  · rwa [hne, load_nil]
  · by_cases hfits : origin.toNat + bytes.length ≤ Config.memSize
    · rw [load_of_fits s hne hfits]
      exact Memory.wf_writeBytes hmem hfits
    · rwa [load_of_too_large s (by omega)]

end

/-- Settles O50: `load` keeps memory canonical and changes neither the status nor the diagnostic stream. -/
theorem loadKeepsInv : Obligations.LoadKeepsInv := by
  refine fun bytes origin s hinv => ⟨load_mem_wf bytes origin hinv.mem_wf, ?_⟩
  rw [load_changes_only_mem]
  exact hinv.diag_status

/-- Settles O51: each cell after writing the bytes, among them and outside them. -/
theorem loadPlacesTheBytes : Obligations.LoadPlacesTheBytes := by
  intro bytes origin s hne hfits
  refine ⟨_, load_of_fits s hne hfits, rfl, fun i hi => Memory.read_writeBytes_getElem s.mem _ hi, fun a ha => ?_⟩
  exact (Memory.read_writeBytes ..).trans (if_neg (by omega))

/-- Settles O52: the two conditions, neither of which writes. -/
theorem loadReportsItsConditions : Obligations.LoadReportsItsConditions :=
  fun _ origin s => ⟨load_nil origin s, load_of_too_large s⟩

/-- Settles O55: trace answers what the fetch reads, and is refused where the fetch faults. -/
theorem traceGivesTheFields : Obligations.TraceGivesTheFields := by
  refine fun s => ⟨fun hpc => ?_, fun hpc => ?_⟩
  · rw [trace, fetch_ok hpc]
  · rw [trace, fetch_error hpc]

end Sys2Proof.Machine
